-- ==== Sys2Proof/Word.lean ====
section
/-! DEFINITION. The Word of the machine and the closed enumerations of its fields: opcodes, addressing modes and
operand fields (10_state.md R29, 30_encoding.md R65, R66, R68, R69). -/

namespace Sys2Proof

/-- A text: characters, leftmost first (00_scope.md R8). -/
abbrev Text := List Char

/-- R29: a memory cell is `Empty` or exactly six characters, character 0 leftmost (D8: arbitrary characters). -/
inductive Word where
  | empty
  | chars (c0 c1 c2 c3 c4 c5 : Char)
  deriving DecidableEq, Repr

/-- The characters of a word, none for `Empty` (R8). -/
def Word.text : Word → Text
  | .empty => []
  | .chars c0 c1 c2 c3 c4 c5 => [c0, c1, c2, c3, c4, c5]

/-- R65: the nine opcodes, in the order of their codes 00 to 08. -/
inductive Opcode where
  | nop | cla | lda | sta | add | sub | neg | jmp | hlt
  deriving DecidableEq, Repr

/-- R66: the four addressing modes, in the order of their digits 1 to 4. -/
inductive Mode where
  | abs | ind | inm | rel
  deriving DecidableEq, Repr

/-- R69: an operand field that may carry a sign. The three written forms are kept apart, because `005` and `+05` are
different fields of one value. -/
inductive SField where
  /-- three digits, value 0..999 -/
  | bare (n : Nat)
  /-- `+` and two digits, value 0..99 -/
  | plus (n : Nat)
  /-- `-` and two digits, value -99..0 -/
  | minus (n : Nat)
  deriving DecidableEq, Repr

/-- An addressing mode with its operand field: unsigned for ABSOLUTE and INDIRECT (R68), possibly signed for IMMEDIATE
and RELATIVE (R69). -/
inductive Operand where
  | abs (p : Nat)
  | ind (p : Nat)
  | inm (p : SField)
  | rel (p : SField)
  deriving DecidableEq, Repr

/-- The mode of an operand. -/
def Operand.mode : Operand → Mode
  | .abs _ => .abs
  | .ind _ => .ind
  | .inm _ => .inm
  | .rel _ => .rel

end Sys2Proof
end

