-- ==== Sys2Proof/Config.lean ====
section
/-! DEFINITION. The constants of 00_scope.md R7, and the values the spec leaves open, as constants without a body. -/

namespace Sys2Proof.Config

/-- R7, `MEM_WORDS`: memory cells are at addresses 0..999. -/
@[simp] abbrev memWords : Nat := 1000

/-- R7, `AC_MAX`: the largest magnitude of a signed value. -/
@[simp] abbrev acMax : Int := 99999

/-- FREE VALUE (log 11). A line of `Load` that neither encodes nor has an address 0..999 fails in two ways at once, and
the spec does not say which error is reported (46_host_interface.md R191, R192): whether it is AddressOutOfRange. -/
opaque loadReportsAddress : Bool

/-- FREE VALUE (log 12). The upper case of a character outside ASCII in the case-insensitive mnemonic lookup
(30_encoding.md R78), which the spec does not state. -/
opaque upperNonAscii : Char → Char

end Sys2Proof.Config
end

