-- ==== Sys2Proof/Syntax.lean ====
section
/-! DEFINITION. The instructions: one constructor for each row of spec/opcode_table.json (30_encoding.md R87). -/

namespace Sys2Proof

/-- One constructor per row of the opcode map (R87), operands at the value or form their field has (R68, R69). -/
inductive Instr where
  /-- NOP (43_data_transfer.md R160) -/
  | nop
  /-- CLA (43_data_transfer.md R161) -/
  | cla
  /-- LDA ABS P (43_data_transfer.md R162) -/
  | ldaAbs (p : Nat)
  /-- LDA IND P (43_data_transfer.md R162) -/
  | ldaInd (p : Nat)
  /-- LDA INM P (43_data_transfer.md R162) -/
  | ldaInm (p : SField)
  /-- LDA REL P (43_data_transfer.md R162) -/
  | ldaRel (p : SField)
  /-- STA ABS P (43_data_transfer.md R163) -/
  | staAbs (p : Nat)
  /-- STA IND P (43_data_transfer.md R163) -/
  | staInd (p : Nat)
  /-- STA INM P (43_data_transfer.md R163) -/
  | staInm (p : SField)
  /-- STA REL P (43_data_transfer.md R163) -/
  | staRel (p : SField)
  /-- ADD ABS P (44_arithmetic_instructions.md R170) -/
  | addAbs (p : Nat)
  /-- ADD IND P (44_arithmetic_instructions.md R170) -/
  | addInd (p : Nat)
  /-- ADD INM P (44_arithmetic_instructions.md R170) -/
  | addInm (p : SField)
  /-- ADD REL P (44_arithmetic_instructions.md R170) -/
  | addRel (p : SField)
  /-- SUB ABS P (44_arithmetic_instructions.md R171) -/
  | subAbs (p : Nat)
  /-- SUB IND P (44_arithmetic_instructions.md R171) -/
  | subInd (p : Nat)
  /-- SUB INM P (44_arithmetic_instructions.md R171) -/
  | subInm (p : SField)
  /-- SUB REL P (44_arithmetic_instructions.md R171) -/
  | subRel (p : SField)
  /-- NEG (44_arithmetic_instructions.md R172) -/
  | neg
  /-- JMP ABS P (45_control_transfer.md R180) -/
  | jmpAbs (p : Nat)
  /-- JMP IND P (45_control_transfer.md R180) -/
  | jmpInd (p : Nat)
  /-- JMP INM P (45_control_transfer.md R180) -/
  | jmpInm (p : SField)
  /-- JMP REL P (45_control_transfer.md R180) -/
  | jmpRel (p : SField)
  /-- HLT (45_control_transfer.md R181) -/
  | hlt
  deriving DecidableEq, Repr

/-- The opcode of an instruction (R65). -/
def Instr.opcode : Instr → Opcode
  | .nop => .nop
  | .cla => .cla
  | .ldaAbs _ => .lda
  | .ldaInd _ => .lda
  | .ldaInm _ => .lda
  | .ldaRel _ => .lda
  | .staAbs _ => .sta
  | .staInd _ => .sta
  | .staInm _ => .sta
  | .staRel _ => .sta
  | .addAbs _ => .add
  | .addInd _ => .add
  | .addInm _ => .add
  | .addRel _ => .add
  | .subAbs _ => .sub
  | .subInd _ => .sub
  | .subInm _ => .sub
  | .subRel _ => .sub
  | .neg => .neg
  | .jmpAbs _ => .jmp
  | .jmpInd _ => .jmp
  | .jmpInm _ => .jmp
  | .jmpRel _ => .jmp
  | .hlt => .hlt

/-- The mode and operand field of an instruction, none for an operand-less opcode (R67, R131). -/
def Instr.operand : Instr → Option Operand
  | .nop => none
  | .cla => none
  | .ldaAbs p => some (.abs p)
  | .ldaInd p => some (.ind p)
  | .ldaInm p => some (.inm p)
  | .ldaRel p => some (.rel p)
  | .staAbs p => some (.abs p)
  | .staInd p => some (.ind p)
  | .staInm p => some (.inm p)
  | .staRel p => some (.rel p)
  | .addAbs p => some (.abs p)
  | .addInd p => some (.ind p)
  | .addInm p => some (.inm p)
  | .addRel p => some (.rel p)
  | .subAbs p => some (.abs p)
  | .subInd p => some (.ind p)
  | .subInm p => some (.inm p)
  | .subRel p => some (.rel p)
  | .neg => none
  | .jmpAbs p => some (.abs p)
  | .jmpInd p => some (.ind p)
  | .jmpInm p => some (.inm p)
  | .jmpRel p => some (.rel p)
  | .hlt => none

end Sys2Proof
end

