-- ==== Sys2Proof/WellFormed.lean ====
section
/-! DEFINITION. Which instructions an instruction word can hold: the ranges of the operand fields
(30_encoding.md R68, R69). -/

namespace Sys2Proof

/-- R68: an unsigned field is three digits, 0..999. -/
def fitsThreeDigits (p : Nat) : Bool := decide (p ≤ 999)

/-- R69: the value after a written sign is two digits, 0..99. -/
def fitsTwoDigits (n : Nat) : Bool := decide (n ≤ 99)

/-- R69: each written form within its digits. -/
def SField.wf : SField → Bool
  | .bare n => fitsThreeDigits n
  | .plus n => fitsTwoDigits n
  | .minus n => fitsTwoDigits n

/-- R68 for ABSOLUTE and INDIRECT, R69 for IMMEDIATE and RELATIVE. -/
def Operand.wf : Operand → Bool
  | .abs p => fitsThreeDigits p
  | .ind p => fitsThreeDigits p
  | .inm p => p.wf
  | .rel p => p.wf

/-- An instruction is well formed when its operand field, if it has one, is. -/
def Instr.wf (i : Instr) : Bool :=
  match i.operand with
  | none => true
  | some o => o.wf

end Sys2Proof
end

