-- ==== Sys2Proof/Decode.lean ====
section
/-! DEFINITION. Digits and fields, the instruction decoder (30_encoding.md R70), total over every word, and the encoder
of well-formed instructions (R79). -/

namespace Sys2Proof

/-! ### Digits (00_scope.md R8) -/

/-- A digit is one of the ten characters `0`..`9`. -/
def isDigit (c : Char) : Bool := decide (48 ≤ c.toNat ∧ c.toNat ≤ 57)

/-- The value of a digit. -/
def dig (c : Char) : Nat := c.toNat - 48

/-- Every character is a digit. -/
def isDigits (s : Text) : Bool := s.all isDigit

/-- The numeral's value, most significant digit leftmost. -/
def num : Text → Nat
  | [] => 0
  | c :: cs => dig c * 10 ^ cs.length + num cs

/-- A sign character. -/
def isSign (c : Char) : Bool := decide (c = '+' ∨ c = '-')

/-- The character of the last decimal digit of a number. -/
def digitChar (d : Nat) : Char := Char.ofNat (48 + d % 10)

/-- The zero-padded numeral of `k` digits. -/
def pad : Nat → Nat → Text
  | 0, _ => []
  | k + 1, m => digitChar (m / 10 ^ k) :: pad k m

/-! ### Data words (R62, R63) -/

/-- R62: a sign and five digits. -/
def isData : Word → Bool
  | .empty => false
  | .chars c0 c1 c2 c3 c4 c5 => isSign c0 && isDigits [c1, c2, c3, c4, c5]

/-- R63: the value of a DataWord (read only where `isData` holds). -/
def dataValue : Word → Int
  | .empty => 0
  | .chars c0 c1 c2 c3 c4 c5 => (if c0 = '-' then -1 else 1) * (num [c1, c2, c3, c4, c5] : Int)

/-! ### Fields -/

/-- R65: the code of an opcode. -/
def Opcode.code : Opcode → Nat
  | .nop => 0 | .cla => 1 | .lda => 2 | .sta => 3 | .add => 4 | .sub => 5 | .neg => 6 | .jmp => 7 | .hlt => 8

/-- R65: the opcode of a code, none above 08. -/
def opcodeOf : Nat → Option Opcode
  | 0 => some .nop | 1 => some .cla | 2 => some .lda | 3 => some .sta | 4 => some .add
  | 5 => some .sub | 6 => some .neg | 7 => some .jmp | 8 => some .hlt
  | _ => none

/-- R66: the digit of a mode. -/
def Mode.digit : Mode → Char
  | .abs => '1' | .ind => '2' | .inm => '3' | .rel => '4'

/-- R66: the mode of a character, none unless it is `1`..`4`. -/
def modeOf (c : Char) : Option Mode :=
  if c = '1' then some .abs
  else if c = '2' then some .ind
  else if c = '3' then some .inm
  else if c = '4' then some .rel
  else none

/-- R68: three digits. -/
def unsignedField (p0 p1 p2 : Char) : Option Nat :=
  if isDigits [p0, p1, p2] then some (num [p0, p1, p2]) else none

/-- R69: three digits, or a sign and two digits. -/
def signedField (p0 p1 p2 : Char) : Option SField :=
  if isDigits [p0, p1, p2] then some (.bare (num [p0, p1, p2]))
  else if isDigits [p1, p2] then
    if p0 = '+' then some (.plus (num [p1, p2]))
    else if p0 = '-' then some (.minus (num [p1, p2]))
    else none
  else none

/-- The operand a mode reads from the characters 3..5 of a word (R68, R69). -/
def operandOf (m : Mode) (p0 p1 p2 : Char) : Option Operand :=
  match m with
  | .abs => (unsignedField p0 p1 p2).map .abs
  | .ind => (unsignedField p0 p1 p2).map .ind
  | .inm => (signedField p0 p1 p2).map .inm
  | .rel => (signedField p0 p1 p2).map .rel

/-- The instructions of an opcode: one where it takes no operand, one for each operand where it does (R67, R131). -/
def Opcode.instrs : Opcode → Instr ⊕ (Operand → Instr)
  | .nop => .inl .nop
  | .cla => .inl .cla
  | .lda => .inr fun | .abs p => .ldaAbs p | .ind p => .ldaInd p | .inm p => .ldaInm p | .rel p => .ldaRel p
  | .sta => .inr fun | .abs p => .staAbs p | .ind p => .staInd p | .inm p => .staInm p | .rel p => .staRel p
  | .add => .inr fun | .abs p => .addAbs p | .ind p => .addInd p | .inm p => .addInm p | .rel p => .addRel p
  | .sub => .inr fun | .abs p => .subAbs p | .ind p => .subInd p | .inm p => .subInm p | .rel p => .subRel p
  | .neg => .inl .neg
  | .jmp => .inr fun | .abs p => .jmpAbs p | .ind p => .jmpInd p | .inm p => .jmpInm p | .rel p => .jmpRel p
  | .hlt => .inl .hlt

/-! ### The decoder (R70 to R74) -/

/-- R70: what a word decodes to. -/
inductive Decoded where
  /-- `Skip(Empty)` -/
  | skipEmpty
  /-- `Skip(Data)`: the word begins with a sign (R71) -/
  | skipData
  /-- `Skip(Invalid)`: an illegal encoding (R72) -/
  | skipInvalid
  /-- `Instr(op, mode, p)` -/
  | instr (i : Instr)
  deriving DecidableEq, Repr

/-- R70, from the opcode on: the tail of an operand-less opcode is not examined (D3). -/
def decodeFields (op : Opcode) (a p0 p1 p2 : Char) : Decoded :=
  match op.instrs with
  | .inl i => .instr i
  | .inr mk =>
    match modeOf a with
    | none => .skipInvalid
    | some m =>
      match operandOf m p0 p1 p2 with
      | none => .skipInvalid
      | some o => .instr (mk o)

/-- R70: the instruction decoder. -/
def decode : Word → Decoded
  | .empty => .skipEmpty
  | .chars c0 c1 c2 c3 c4 c5 =>
    if isSign c0 then .skipData
    else if isDigits [c0, c1] then
      match opcodeOf (num [c0, c1]) with
      | none => .skipInvalid
      | some op => decodeFields op c2 c3 c4 c5
    else .skipInvalid

/-! ### The encoder (R79) -/

/-- The word of an opcode code, a mode character and three operand characters (R64). -/
def instrWord (op : Opcode) (a p0 p1 p2 : Char) : Word :=
  .chars (digitChar (op.code / 10)) (digitChar op.code) a p0 p1 p2

/-- R69: the three characters of a field that may carry a sign. -/
def SField.chars : SField → Char × Char × Char
  | .bare n => (digitChar (n / 100), digitChar (n / 10), digitChar n)
  | .plus n => ('+', digitChar (n / 10), digitChar n)
  | .minus n => ('-', digitChar (n / 10), digitChar n)

/-- R68, R69: the three characters of an operand field. -/
def Operand.chars : Operand → Char × Char × Char
  | .abs p => (SField.bare p).chars
  | .ind p => (SField.bare p).chars
  | .inm p => p.chars
  | .rel p => p.chars

/-- R79: two-digit code, mode digit and operand field; `0000` after an operand-less code (R67). -/
def encode (i : Instr) : Word :=
  match i.operand with
  | none => instrWord i.opcode '0' '0' '0' '0'
  | some o => instrWord i.opcode o.mode.digit o.chars.1 o.chars.2.1 o.chars.2.2

/-! ### Words as numbers

The machine has no bits (R5, R8, R42). The host numbers an instruction's bits all the same; log 2 fixes the convention:
character `k` of a word is byte `k` of the number, as its code point, and a character beyond the given bits is the
zero character. -/

/-- Character `k` of the word numbered `w` over `nbits` bits (log 2). -/
def tableChar (nbits w k : Nat) : Char :=
  if 8 * k < nbits then Char.ofNat (w / 2 ^ (8 * k) % 256) else '0'

/-- The six-character word numbered `w` over `nbits` bits (log 2). -/
def tableWord (nbits w : Nat) : Word :=
  .chars (tableChar nbits w 0) (tableChar nbits w 1) (tableChar nbits w 2)
    (tableChar nbits w 3) (tableChar nbits w 4) (tableChar nbits w 5)

/-- The instruction the decoder reads from the word numbered `w`, none where it skips the word. -/
def decodeTableWord (nbits w : Nat) : Option Instr :=
  match decode (tableWord nbits w) with
  | .skipEmpty => none
  | .skipData => none
  | .skipInvalid => none
  | .instr i => some i

end Sys2Proof
end

