-- ==== Sys2Proof/Machine/Flags.lean ====
section
/-! DEFINITION. The decimal arithmetic unit (40_arithmetic_unit.md). The machine has no flags (10_state.md R33): what
another machine would flag, this unit answers as the outcome Overflow in place of a result (R105, R110). -/

namespace Sys2Proof.Machine

/-- R110: a result in -99999..99999, or Overflow. -/
inductive ArithResult where
  | result (r : Int)
  | overflow
  deriving DecidableEq, Repr

/-- R100: the range of a signed value. -/
def inRange (r : Int) : Bool := decide (r.natAbs ≤ 99999)

/-- R105: an exact result in range, or Overflow and no result: no wrap-around and no saturation. -/
def narrow (r : Int) : ArithResult := if inRange r then .result r else .overflow

/-- R103. -/
def add (a b : Int) : ArithResult := narrow (a + b)

/-- R104: `a - b` (D25). -/
def subtract (a b : Int) : ArithResult := narrow (a - b)

/-- R106: negation never overflows. -/
def negate (a : Int) : Int := -a

/-- R101: sign and five digits; `+` for zero. Applied only where `inRange n` holds. -/
def formatSigned (n : Int) : Word :=
  .chars (if n < 0 then '-' else '+') (digitChar (n.natAbs / 10000)) (digitChar (n.natAbs / 1000))
    (digitChar (n.natAbs / 100)) (digitChar (n.natAbs / 10)) (digitChar n.natAbs)

end Sys2Proof.Machine
end

