-- ==== Sys2Proof/Machine/State.lean ====
section
/-! DEFINITION. The machine's state as plain data (10_state.md R20 to R38), its reset value, and the reasons a step can
stop for. -/

namespace Sys2Proof.Machine

/-! ### Memory (10_state.md R30) -/

/-- The 1000 cells, as the (address, word) pairs of the cells that are not `Empty`. The machine has no bytes (R42), so
an entry holds a Word (log 1). An unlisted address reads `Empty`, the power-on content (R36). -/
structure Memory where
  cells : List (Nat × Word)
  deriving DecidableEq, Repr

/-- The canonical form: addresses strictly rising, all 0..999, and no entry equal to what an unlisted address reads. -/
abbrev Memory.wf (m : Memory) : Prop :=
  m.cells.Pairwise (fun x y => x.1 < y.1) ∧ ∀ c ∈ m.cells, c.1 < Config.memWords ∧ c.2 ≠ .empty

/-! ### Registers, sequencer state and condition log -/

/-- R20: the six registers. -/
structure RegisterFile where
  /-- R22: 0..1000 -/
  pc : Nat
  /-- R24: 0..999 -/
  pcPrev : Nat
  /-- R25: -99999..99999; its textual form is `formatSigned ac` -/
  ac : Int
  /-- R26: 0..999, or none before its first write -/
  mar : Option Nat
  /-- R27 -/
  mdr : Word
  /-- R28 -/
  ir : Word
  deriving DecidableEq, Repr

/-- R31: the sequencer state RS. -/
inductive RunState where
  | idle | running | halted | ended
  deriving DecidableEq, Repr

/-- 60_exceptions.md R210: the runtime conditions, in the order of their codes. -/
inductive Condition where
  | overflow | outOfBounds | invalidWordFormat | invalidInstruction | nonDataOperand | badIndirectAddress
  deriving DecidableEq, Repr

/-- R32: a condition record, with the three registers at the moment of the report. -/
structure CondRecord where
  kind : Condition
  pc : Nat
  pcPrev : Nat
  ir : Word
  deriving DecidableEq, Repr

/-! ### The ports (00_scope.md R11) -/

/-- R220: the SyntaxError kinds of the write gate and the assembler. -/
inductive SyntaxError where
  | unknownOpcode | unknownAddressingMode | invalidOperandLength | signedOperandNotAllowed | invalidWordFormat
  deriving DecidableEq, Repr

/-- R220: the errors of the host operations. -/
inductive HostError where
  | badText (k : SyntaxError)
  | addressOutOfRange
  | busy
  deriving DecidableEq, Repr

/-- 46_host_interface.md R190: the five host operations. -/
inductive HostRequest where
  | load (start : Nat) (lines : List Text)
  | edit (a : Int) (text : Text)
  | run
  | snapshot
  | disassemble (w : Word)
  deriving DecidableEq, Repr

/-- What the host port answers (R190 to R196). -/
inductive HostReply where
  /-- the batch was stored whole (R191; log 15) -/
  | loaded
  /-- the batch stopped at this line (R191, R192) -/
  | loadFailed (line : Nat) (e : HostError)
  /-- the edit was stored (R193; log 15) -/
  | edited
  /-- the request was refused and changed nothing (R190, R193) -/
  | refused (e : HostError)
  /-- `Run()` returned with this final sequencer state (R194) -/
  | ran (rs : RunState)
  /-- R195: memory, the six registers, RS and CL -/
  | snapshot (mem : Memory) (regs : RegisterFile) (rs : RunState) (cl : List CondRecord)
  /-- R196: a disassembly -/
  | text (t : Text)
  deriving DecidableEq, Repr

/-- R197: what the observer receives. -/
inductive Notification where
  /-- after a micro-step: the registers and the memory address it touched -/
  | microStep (regs : RegisterFile) (touched : Option Nat)
  /-- a condition record, when it is reported -/
  | condition (r : CondRecord)
  deriving DecidableEq, Repr

/-- The state of the machine. `regs`, `mem`, `rs` and `cl` are the spec's; `request`, `reply` and `observed` are the
model's own fields for the transactions at the block's ports (log 4, log 5). -/
structure State where
  regs : RegisterFile
  mem : Memory
  /-- R31: the sequencer state -/
  rs : RunState
  /-- R32: the condition log -/
  cl : List CondRecord
  /-- the host request that the next step serves -/
  request : Option HostRequest
  /-- the answer the host port gave in the latest step -/
  reply : Option HostReply
  /-- the notifications the observer received in the latest step, oldest first -/
  observed : List Notification
  deriving DecidableEq, Repr

/-- R36, R240: the power-on state. -/
def State.reset : State where
  regs := { pc := 0, pcPrev := 0, ac := 0, mar := none, mdr := .empty, ir := .empty }
  mem := { cells := [] }
  rs := .idle
  cl := []
  request := none
  reply := none
  observed := []

/-- The faults of the model. Neither is reached from a state that keeps the ranges of R20 by an instruction that an
instruction word can hold; neither stops a run from reset. -/
inductive Fault where
  /-- Raised by a memory access outside 0..999, which the core never makes (20_memory.md R44; log 8). Safe. -/
  | addressOutOfRange (a : Nat)
  /-- Raised by STA when AC is outside -99999..99999, where `formatSigned` is not defined (40_arithmetic_unit.md R101;
  log 9). Safe. -/
  | accumulatorOutOfRange
  deriving DecidableEq, Repr

/-- The refusals of the model. -/
inductive Refusal where
  /-- Raised by an arm of `exec` whose instruction has no meaning in the model; no arm does. Safe. -/
  | notModelled (mnemonic : String)
  deriving DecidableEq, Repr

end Sys2Proof.Machine
end

