-- ==== Sys2Proof/Machine/Ops.lean ====
section
/-! DEFINITION. The named operations over state: memory, the micro-steps (00_scope.md R10), the report of a condition,
which is this machine's whole exception mechanism (60_exceptions.md R217, R222), the skip and the pre-increment, and the
start and end of a run. -/

namespace Sys2Proof.Machine

/-! ### Memory (20_memory.md R40 to R51) -/

/-- The word listed at an address, `Empty` where none is. -/
def readCells (a : Nat) : List (Nat × Word) → Word
  | [] => .empty
  | (k, w) :: rest => if k = a then w else readCells a rest

/-- Puts a word at an address, in address order; `Empty` is not listed. -/
def writeCells (a : Nat) (w : Word) : List (Nat × Word) → List (Nat × Word)
  | [] => if w = .empty then [] else [(a, w)]
  | (k, v) :: rest =>
    if a < k then (if w = .empty then (k, v) :: rest else (a, w) :: (k, v) :: rest)
    else if a = k then (if w = .empty then rest else (a, w) :: rest)
    else (k, v) :: writeCells a w rest

/-- R45: `MemRead(a, 1)`. -/
def Memory.read (m : Memory) (a : Nat) : Word := readCells a m.cells

/-- R46: `MemWrite(a, 1, w)` replaces the whole cell. -/
def Memory.write (m : Memory) (a : Nat) (w : Word) : Memory := { cells := writeCells a w m.cells }

/-- R43, R44: every address 0..999 is legal and there is no other. -/
def isAddress (a : Nat) : Bool := decide (a < Config.memWords)

/-! ### Micro-steps (00_scope.md R10, 42_control_sequencer.md R150) -/

/-- R150, R197: the observer receives the registers and the touched address. -/
def notify (touched : Option Nat) (s : State) : State :=
  { s with observed := s.observed ++ [.microStep s.regs touched] }

/-- The micro-step `PC <- v`. -/
def writePC (v : Nat) (s : State) : State :=
  notify none { s with regs := { s.regs with pc := v } }

/-- The micro-step `PCPrev <- v`. -/
def writePCPrev (v : Nat) (s : State) : State :=
  notify none { s with regs := { s.regs with pcPrev := v } }

/-- The micro-step `AC <- v`. -/
def writeAC (v : Int) (s : State) : State :=
  notify none { s with regs := { s.regs with ac := v } }

/-- The micro-step `MAR <- v`. -/
def writeMAR (v : Nat) (s : State) : State :=
  notify none { s with regs := { s.regs with mar := some v } }

/-- The micro-step `MDR <- MemRead(a, 1)`, touching `a`. -/
def readMDR (a : Nat) (s : State) : State :=
  notify (some a) { s with regs := { s.regs with mdr := s.mem.read a } }

/-- The micro-step `IR <- MemRead(a, 1)`, touching `a` (R142). -/
def readIR (a : Nat) (s : State) : State :=
  notify (some a) { s with regs := { s.regs with ir := s.mem.read a } }

/-- The micro-step `MemWrite(a, 1, w)`, touching `a`. -/
def writeMem (a : Nat) (w : Word) (s : State) : State :=
  notify (some a) { s with mem := s.mem.write a w }

/-! ### Conditions (60_exceptions.md) -/

/-- R210: the code of a condition. -/
def Condition.code : Condition → Nat
  | .overflow => 1
  | .outOfBounds => 2
  | .invalidWordFormat => 3
  | .invalidInstruction => 4
  | .nonDataOperand => 5
  | .badIndirectAddress => 6

/-- R217: the record of a condition now. -/
def recordOf (c : Condition) (s : State) : CondRecord :=
  { kind := c, pc := s.regs.pc, pcPrev := s.regs.pcPrev, ir := s.regs.ir }

/-- R217: `report C` appends the record to CL and passes it to the observer. It is no micro-step; it changes no
register, not RS and not memory. There is no entry to a handler and no return from one (R222, R223). -/
def report (c : Condition) (s : State) : State :=
  { s with cl := s.cl ++ [recordOf c s], observed := s.observed ++ [.condition (recordOf c s)] }

/-! ### Sequencing (42_control_sequencer.md) -/

/-- `PCPrev <- PC; PC <- PC + 1`, two micro-steps in that order. -/
def advance (s : State) : State :=
  writePC (s.regs.pc + 1) (writePCPrev s.regs.pc s)

/-- R146: the pre-increment of every opcode except JMP. -/
def preIncrement (s : State) : State := advance s

/-- R143: the skip of a cell that is not executable. -/
def skipCell (s : State) : State := advance s

/-- R140, R148, R194: a run ends, and `Run()` returns the final RS to the host. The write of RS is no micro-step. -/
def endRun (rs : RunState) (s : State) : State :=
  { s with rs := rs, reply := some (.ran rs) }

/-- R37, R241: the start of a run. Its writes are not notified (R141); memory, AC, MAR, MDR and IR stay. -/
def startRun (s : State) : State :=
  { s with rs := .running, regs := { s.regs with pc := 0, pcPrev := 0 }, cl := [] }

/-- The ports are clear when a step begins: its request is taken, and what it answers and what it shows the observer
is its own (log 5). -/
def clearPorts (s : State) : State :=
  { s with request := none, reply := none, observed := [] }

end Sys2Proof.Machine
end

