-- ==== Sys2Proof/Machine/Operands.lean ====
section
/-! DEFINITION. The operand forms: the address resolver (41_address_resolver.md), a multiplexer over the four modes with
three entry points (R120). -/

namespace Sys2Proof.Machine

/-- R69: `sval`, the value of a field that may carry a sign. -/
def sval : SField → Int
  | .bare n => n
  | .plus n => n
  | .minus n => -(n : Int)

/-- What a resolution answers, with the state after its micro-steps: `Ok(v)`, `Fail(C)`, or the model's fault. -/
inductive Resolution (α : Type) where
  | ok (v : α) (s : State)
  | fail (c : Condition) (s : State)
  | fault (f : Fault)
  deriving DecidableEq, Repr

/-- The micro-step `MDR <- MemRead(a, 1)` at an address of the machine; the core makes no other access (R44). -/
def loadMDR (a : Nat) (s : State) : Resolution Word :=
  if isAddress a then .ok (s.mem.read a) (readMDR a s) else .fault (.addressOutOfRange a)

/-- R122: a pointer word is usable when it is a DataWord of value 0..999; its address then. -/
def pointerAddress (w : Word) : Option Nat :=
  if isData w && decide (0 ≤ dataValue w) && decide (dataValue w ≤ 999) then some (dataValue w).toNat else none

/-- R121. -/
def resolveAbs (p : Nat) (s : State) : Resolution Nat :=
  .ok p (writeMAR p s)

/-- R122: the pointer read. -/
def resolveInd (p : Nat) (s : State) : Resolution Nat :=
  match loadMDR p (writeMAR p s) with
  | .ok w s1 =>
    match pointerAddress w with
    | some a => .ok a (writeMAR a s1)
    | none => .fail .badIndirectAddress s1
  | .fail c s1 => .fail c s1
  | .fault f => .fault f

/-- R124, R130: PC plus the displacement, with PC as it is now; none outside 0..999. -/
def relativeAddress (d : SField) (s : State) : Option Nat :=
  if decide (0 ≤ (s.regs.pc : Int) + sval d) && decide ((s.regs.pc : Int) + sval d ≤ 999)
  then some ((s.regs.pc : Int) + sval d).toNat else none

/-- R124: out of bounds is found before any micro-step. -/
def resolveRel (d : SField) (s : State) : Resolution Nat :=
  match relativeAddress d s with
  | some a => .ok a (writeMAR a s)
  | none => .fail .outOfBounds s

/-- R125: `ResolveAddr(mode, p)`. -/
def resolveAddr (o : Operand) (s : State) : Resolution Nat :=
  match o with
  | .abs p => resolveAbs p s
  | .ind p => resolveInd p s
  | .rel p => resolveRel p s
  | .inm _ => .fail .invalidInstruction s

/-- R126: the operand read at an effective address, a DataWord or NonDataOperand. -/
def readOperand (a : Nat) (s : State) : Resolution Int :=
  match loadMDR a s with
  | .ok w s1 => if isData w then .ok (dataValue w) s1 else .fail .nonDataOperand s1
  | .fail c s1 => .fail c s1
  | .fault f => .fault f

/-- R126: the memory forms of `ResolveValue`. -/
def resolveMemoryValue (o : Operand) (s : State) : Resolution Int :=
  match resolveAddr o s with
  | .ok a s1 => readOperand a s1
  | .fail c s1 => .fail c s1
  | .fault f => .fault f

/-- R126: `ResolveValue(mode, p)`; IMMEDIATE makes no micro-step (R123). -/
def resolveValue (o : Operand) (s : State) : Resolution Int :=
  match o with
  | .inm p => .ok (sval p) s
  | .abs p => resolveMemoryValue (.abs p) s
  | .ind p => resolveMemoryValue (.ind p) s
  | .rel p => resolveMemoryValue (.rel p) s

/-- R127: `ResolveTarget(mode, p)`; ABSOLUTE and RELATIVE write no MAR, INDIRECT is the pointer value (C4). -/
def resolveTarget (o : Operand) (s : State) : Resolution Nat :=
  match o with
  | .abs p => .ok p s
  | .ind p => resolveAddr (.ind p) s
  | .rel p =>
    match relativeAddress p s with
    | some a => .ok a s
    | none => .fail .outOfBounds s
  | .inm _ => .fail .invalidInstruction s

end Sys2Proof.Machine
end

