-- ==== Sys2Proof/Machine/Arithmetic.lean ====
section
/-! DEFINITION. The arithmetic instructions ADD, SUB and NEG (44_arithmetic_instructions.md), over the decimal
arithmetic unit (40_arithmetic_unit.md). -/

namespace Sys2Proof.Machine

/-- R170, R171, R211: AC takes the unit's result; Overflow is reported and AC stays. -/
def writeResult (r : ArithResult) (s : State) : State :=
  match r with
  | .result v => writeAC v s
  | .overflow => report .overflow s

/-- R170, R171: an operation of the unit on AC and the operand value, with any mode. -/
def combineAccumulator (f : Int → Int → ArithResult) (o : Operand) (s : State) : Host.Outcome State Fault Refusal :=
  match resolveValue o (preIncrement s) with
  | .ok v s1 => .next (writeResult (f s1.regs.ac v) s1)
  | .fail c s1 => .next (report c s1)
  | .fault e => .fault e

/-- R170: ADD ABS P. -/
def execAddAbs (p : Nat) (s : State) : Host.Outcome State Fault Refusal := combineAccumulator add (.abs p) s

/-- R170: ADD IND P. -/
def execAddInd (p : Nat) (s : State) : Host.Outcome State Fault Refusal := combineAccumulator add (.ind p) s

/-- R170: ADD INM P. -/
def execAddInm (p : SField) (s : State) : Host.Outcome State Fault Refusal := combineAccumulator add (.inm p) s

/-- R170: ADD REL P. -/
def execAddRel (p : SField) (s : State) : Host.Outcome State Fault Refusal := combineAccumulator add (.rel p) s

/-- R171: SUB ABS P. -/
def execSubAbs (p : Nat) (s : State) : Host.Outcome State Fault Refusal := combineAccumulator subtract (.abs p) s

/-- R171: SUB IND P. -/
def execSubInd (p : Nat) (s : State) : Host.Outcome State Fault Refusal := combineAccumulator subtract (.ind p) s

/-- R171: SUB INM P. -/
def execSubInm (p : SField) (s : State) : Host.Outcome State Fault Refusal := combineAccumulator subtract (.inm p) s

/-- R171: SUB REL P. -/
def execSubRel (p : SField) (s : State) : Host.Outcome State Fault Refusal := combineAccumulator subtract (.rel p) s

/-- R172: `AC <- negate(AC)`. -/
def execNeg (s : State) : Host.Outcome State Fault Refusal :=
  .next (writeAC (negate (preIncrement s).regs.ac) (preIncrement s))

end Sys2Proof.Machine
end

