-- ==== Sys2Proof/Machine/ControlTransfer.lean ====
section
/-! DEFINITION. The control transfer instructions JMP and HLT (45_control_transfer.md). JMP makes no pre-increment
(42_control_sequencer.md R146), so PC is the JMP's own address until it writes it (10_state.md R23). -/

namespace Sys2Proof.Machine

/-- R180: `PCPrev <- PC; PC <- t`. -/
def transfer (t : Nat) (s : State) : State := writePC t (writePCPrev s.regs.pc s)

/-- R180: JMP with any mode; a failed JMP leaves PC and PCPrev as they are. -/
def jump (o : Operand) (s : State) : Host.Outcome State Fault Refusal :=
  match resolveTarget o s with
  | .ok t s1 => .next (transfer t s1)
  | .fail c s1 => .next (report c s1)
  | .fault f => .fault f

/-- R180: JMP ABS P. -/
def execJmpAbs (p : Nat) (s : State) : Host.Outcome State Fault Refusal := jump (.abs p) s

/-- R180: JMP IND P. -/
def execJmpInd (p : Nat) (s : State) : Host.Outcome State Fault Refusal := jump (.ind p) s

/-- R180: JMP INM P: reports InvalidInstruction (30_encoding.md R73). -/
def execJmpInm (p : SField) (s : State) : Host.Outcome State Fault Refusal := jump (.inm p) s

/-- R180: JMP REL P. -/
def execJmpRel (p : SField) (s : State) : Host.Outcome State Fault Refusal := jump (.rel p) s

/-- R181: `RS <- HALTED` after the pre-increment; the run returns to the host (R194). -/
def execHlt (s : State) : Host.Outcome State Fault Refusal := .next (endRun .halted (preIncrement s))

end Sys2Proof.Machine
end

