-- ==== Sys2Proof/Machine/DataTransfer.lean ====
section
/-! DEFINITION. The data transfer instructions NOP, CLA, LDA and STA (43_data_transfer.md). Each runs after the fetch,
so IR holds its word (42_control_sequencer.md R151), and begins with the pre-increment (R146). -/

namespace Sys2Proof.Machine

/-- R160: nothing after the pre-increment. -/
def execNop (s : State) : Host.Outcome State Fault Refusal := .next (preIncrement s)

/-- R161: `AC <- 0`. -/
def execCla (s : State) : Host.Outcome State Fault Refusal := .next (writeAC 0 (preIncrement s))

/-- R162: LDA with any mode. -/
def loadAccumulator (o : Operand) (s : State) : Host.Outcome State Fault Refusal :=
  match resolveValue o (preIncrement s) with
  | .ok v s1 => .next (writeAC v s1)
  | .fail c s1 => .next (report c s1)
  | .fault f => .fault f

/-- R163: `MemWrite(a, 1, formatSigned(AC))`, within the domains of both (R44, R101). -/
def storeWord (a : Nat) (s : State) : Host.Outcome State Fault Refusal :=
  if isAddress a then
    if inRange s.regs.ac then .next (writeMem a (formatSigned s.regs.ac) s) else .fault .accumulatorOutOfRange
  else .fault (.addressOutOfRange a)

/-- R163: STA with any mode. -/
def storeAccumulator (o : Operand) (s : State) : Host.Outcome State Fault Refusal :=
  match resolveAddr o (preIncrement s) with
  | .ok a s1 => storeWord a s1
  | .fail c s1 => .next (report c s1)
  | .fault f => .fault f

/-- R162: LDA ABS P. -/
def execLdaAbs (p : Nat) (s : State) : Host.Outcome State Fault Refusal := loadAccumulator (.abs p) s

/-- R162: LDA IND P. -/
def execLdaInd (p : Nat) (s : State) : Host.Outcome State Fault Refusal := loadAccumulator (.ind p) s

/-- R162: LDA INM P. -/
def execLdaInm (p : SField) (s : State) : Host.Outcome State Fault Refusal := loadAccumulator (.inm p) s

/-- R162: LDA REL P. -/
def execLdaRel (p : SField) (s : State) : Host.Outcome State Fault Refusal := loadAccumulator (.rel p) s

/-- R163: STA ABS P. -/
def execStaAbs (p : Nat) (s : State) : Host.Outcome State Fault Refusal := storeAccumulator (.abs p) s

/-- R163: STA IND P. -/
def execStaInd (p : Nat) (s : State) : Host.Outcome State Fault Refusal := storeAccumulator (.ind p) s

/-- R163: STA INM P: reports InvalidInstruction (30_encoding.md R73). -/
def execStaInm (p : SField) (s : State) : Host.Outcome State Fault Refusal := storeAccumulator (.inm p) s

/-- R163: STA REL P. -/
def execStaRel (p : SField) (s : State) : Host.Outcome State Fault Refusal := storeAccumulator (.rel p) s

end Sys2Proof.Machine
end

