-- ==== Sys2Proof/Machine/Dispatch.lean ====
section
/-! DEFINITION. The dispatch of the sequencer (42_control_sequencer.md R147): one arm per instruction. -/

namespace Sys2Proof.Machine

def exec (i : Instr) (s : State) : Host.Outcome State Fault Refusal :=
  match i with
  | .nop => Sys2Proof.Machine.execNop s
  | .cla => Sys2Proof.Machine.execCla s
  | .ldaAbs p => Sys2Proof.Machine.execLdaAbs p s
  | .ldaInd p => Sys2Proof.Machine.execLdaInd p s
  | .ldaInm p => Sys2Proof.Machine.execLdaInm p s
  | .ldaRel p => Sys2Proof.Machine.execLdaRel p s
  | .staAbs p => Sys2Proof.Machine.execStaAbs p s
  | .staInd p => Sys2Proof.Machine.execStaInd p s
  | .staInm p => Sys2Proof.Machine.execStaInm p s
  | .staRel p => Sys2Proof.Machine.execStaRel p s
  | .addAbs p => Sys2Proof.Machine.execAddAbs p s
  | .addInd p => Sys2Proof.Machine.execAddInd p s
  | .addInm p => Sys2Proof.Machine.execAddInm p s
  | .addRel p => Sys2Proof.Machine.execAddRel p s
  | .subAbs p => Sys2Proof.Machine.execSubAbs p s
  | .subInd p => Sys2Proof.Machine.execSubInd p s
  | .subInm p => Sys2Proof.Machine.execSubInm p s
  | .subRel p => Sys2Proof.Machine.execSubRel p s
  | .neg => Sys2Proof.Machine.execNeg s
  | .jmpAbs p => Sys2Proof.Machine.execJmpAbs p s
  | .jmpInd p => Sys2Proof.Machine.execJmpInd p s
  | .jmpInm p => Sys2Proof.Machine.execJmpInm p s
  | .jmpRel p => Sys2Proof.Machine.execJmpRel p s
  | .hlt => Sys2Proof.Machine.execHlt s

end Sys2Proof.Machine
end

