-- ==== Sys2Proof/Machine/Codec.lean ====
section
/-! DEFINITION. The text side of the word codec: the write gate (30_encoding.md R75), the assembler (R77 to R84) and the
disassembler (R85). -/

namespace Sys2Proof.Machine

/-! ### The write gate (R75) -/

/-- R75: the checks on a text that begins with an operand-taking opcode's code. -/
def validateOperand (a p0 p1 p2 : Char) (w : Word) : Except SyntaxError Word :=
  match modeOf a with
  | none => .error .invalidWordFormat
  | some m =>
    if (m = .abs ∨ m = .ind) ∧ isSign p0 = true then .error .signedOperandNotAllowed
    else match operandOf m p0 p1 p2 with
      | none => .error .invalidWordFormat
      | some _ => .ok w

/-- R75: the checks on six characters. -/
def validateSix (c0 c1 c2 c3 c4 c5 : Char) : Except SyntaxError Word :=
  if isSign c0 then
    if isDigits [c1, c2, c3, c4, c5] then .ok (.chars c0 c1 c2 c3 c4 c5) else .error .invalidWordFormat
  else if isDigits [c0, c1] then
    match opcodeOf (num [c0, c1]) with
    | none => .error .invalidWordFormat
    | some op =>
      match op.instrs with
      | .inl _ =>
        if [c2, c3, c4, c5] = ['0', '0', '0', '0'] then .ok (.chars c0 c1 c2 c3 c4 c5)
        else .error .invalidWordFormat
      | .inr _ => validateOperand c2 c3 c4 c5 (.chars c0 c1 c2 c3 c4 c5)
  else .error .invalidWordFormat

/-- R75: `Validate(t)`, the gate of every word the host writes. -/
def validate (t : Text) : Except SyntaxError Word :=
  match t with
  | [] => .ok .empty
  | [c0, c1, c2, c3, c4, c5] => validateSix c0 c1 c2 c3 c4 c5
  | _ => .error .invalidWordFormat

/-! ### The assembler (R77 to R84) -/

/-- R77: whitespace is the space and the tab. -/
def isBlank (c : Char) : Bool := decide (c = ' ' ∨ c = '\t')

/-- A token read so far, if it has a character. -/
def flush (cur : Text) : List Text := if cur = [] then [] else [cur]

/-- R77: the tokens of a line whose current token is `cur`. -/
def tokensFrom (cur : Text) : Text → List Text
  | [] => flush cur
  | c :: cs => if isBlank c then flush cur ++ tokensFrom [] cs else tokensFrom (cur ++ [c]) cs

/-- R77: the whitespace-separated tokens of a line. -/
def tokens (line : Text) : List Text := tokensFrom [] line

/-- R78: upper case; beyond ASCII the spec does not state it (log 12). -/
def upperChar (c : Char) : Char :=
  if 97 ≤ c.toNat ∧ c.toNat ≤ 122 then Char.ofNat (c.toNat - 32)
  else if c.toNat < 128 then c
  else Config.upperNonAscii c

/-- The mnemonic of an opcode (R65, R85). -/
def opcodeName : Opcode → Text
  | .nop => ['N', 'O', 'P'] | .cla => ['C', 'L', 'A'] | .lda => ['L', 'D', 'A'] | .sta => ['S', 'T', 'A']
  | .add => ['A', 'D', 'D'] | .sub => ['S', 'U', 'B'] | .neg => ['N', 'E', 'G'] | .jmp => ['J', 'M', 'P']
  | .hlt => ['H', 'L', 'T']

/-- The opcodes, in the order of their codes (R65). -/
def opcodes : List Opcode := [.nop, .cla, .lda, .sta, .add, .sub, .neg, .jmp, .hlt]

/-- R78: the case-insensitive lookup among the nine names. -/
def opcodeOfToken (t : Text) : Option Opcode := opcodes.find? fun op => t.map upperChar = opcodeName op

/-- R66: the assembler token of a mode. -/
def modeToken : Mode → Text
  | .abs => ['A', 'B', 'S'] | .ind => ['I', 'N', 'D'] | .inm => ['I', 'N', 'M'] | .rel => ['R', 'E', 'L']

/-- R78: the case-sensitive lookup among the four mode tokens. -/
def modeOfToken (t : Text) : Option Mode := [Mode.abs, .ind, .inm, .rel].find? fun m => t = modeToken m

/-- R80: an operand token of three characters, and the tokens after it. -/
def assembleOperand (op : Opcode) (m : Mode) (p0 p1 p2 : Char) (more : List Text) : Except SyntaxError Word :=
  if (m = .abs ∨ m = .ind) ∧ isSign p0 = true then .error .signedOperandNotAllowed
  else match operandOf m p0 p1 p2 with
    | none => .error .invalidWordFormat
    | some _ => if more = [] then .ok (instrWord op m.digit p0 p1 p2) else .error .invalidWordFormat

/-- R80: the tokens after an operand-taking mnemonic. -/
def assembleModes (op : Opcode) (rest : List Text) : Except SyntaxError Word :=
  match rest with
  | [] => .error .unknownAddressingMode
  | t1 :: rest1 =>
    match modeOfToken t1 with
    | none => .error .unknownAddressingMode
    | some m =>
      match rest1 with
      | [p0, p1, p2] :: more => assembleOperand op m p0 p1 p2 more
      | _ => .error .invalidOperandLength

/-- R80: `Encode` on the tokens of a line. -/
def assembleTokens (toks : List Text) : Except SyntaxError Word :=
  match toks with
  | [] => .ok .empty
  | t0 :: rest =>
    match opcodeOfToken t0 with
    | some op =>
      match op.instrs with
      | .inl _ => if rest = [] then .ok (instrWord op '0' '0' '0' '0') else .error .invalidWordFormat
      | .inr _ => assembleModes op rest
    | none =>
      if t0.length = 6 then (if rest = [] then validate t0 else .error .invalidWordFormat)
      else .error .unknownOpcode

/-- R80: `Encode(line)`. -/
def assemble (line : Text) : Except SyntaxError Word := assembleTokens (tokens line)

/-! ### The disassembler (R85) -/

/-- R85: the rendering of an instruction. -/
def displayInstr (i : Instr) : Text :=
  match i.operand with
  | none => opcodeName i.opcode
  | some o => opcodeName i.opcode ++ [' '] ++ modeToken o.mode ++ [' ', o.chars.1, o.chars.2.1, o.chars.2.2]

/-- R85: `Display(w)`. -/
def display (w : Word) : Text :=
  match decode w with
  | .skipEmpty => []
  | .skipData => w.text
  | .skipInvalid => w.text
  | .instr i => displayInstr i

end Sys2Proof.Machine
end

