-- ==== Sys2Proof/Machine/HostPort.lean ====
section
/-! DEFINITION. The host port (46_host_interface.md R190 to R196): what each request does and answers. Host writes to
memory are no micro-steps and are not notified. -/

namespace Sys2Proof.Machine

/-- The host port answers. -/
def answer (r : HostReply) (s : State) : State := { s with reply := some r }

/-- R191, R193: the host stores a word. -/
def hostStore (a : Nat) (w : Word) (s : State) : State := { s with mem := s.mem.write a w }

/-- R191, R192: the error of line `i` of a batch at address `a`, if its text gives `e`. Where the line fails both ways
the spec does not say which error is reported (log 11). -/
def loadError (a : Nat) (k : SyntaxError) : HostError :=
  if isAddress a then .badText k else if Config.loadReportsAddress then .addressOutOfRange else .badText k

/-- R191, R192: the lines of a batch from line `i` on, line `i` at address `start + i`. -/
def loadLines (start i : Nat) : List Text → State → State
  | [], s => answer .loaded s
  | l :: ls, s =>
    match assemble l with
    | .ok w =>
      if isAddress (start + i) then loadLines start (i + 1) ls (hostStore (start + i) w s)
      else answer (.loadFailed i .addressOutOfRange) s
    | .error k => answer (.loadFailed i (loadError (start + i) k)) s

/-- R193: `Edit(a, text)`. -/
def editCell (a : Int) (t : Text) (s : State) : State :=
  if decide (0 ≤ a) && isAddress a.toNat then
    match validate t with
    | .ok w => answer .edited (hostStore a.toNat w s)
    | .error k => answer (.refused (.badText k)) s
  else answer (.refused .addressOutOfRange) s

/-- R195: `Snapshot()`. -/
def takeSnapshot (s : State) : State := answer (.snapshot s.mem s.regs s.rs s.cl) s

/-- R190: an operation admitted only while RS is not RUNNING; otherwise Busy, and nothing changes. -/
def whileIdle (f : State → State) (s : State) : State :=
  if s.rs = .running then answer (.refused .busy) s else f s

/-- R190 to R196: the five host operations. `Run` only starts the run here; it returns by `endRun` (R194). -/
def serve (r : HostRequest) (s : State) : State :=
  match r with
  | .load start lines => whileIdle (loadLines start 0 lines) s
  | .edit a t => whileIdle (editCell a t) s
  | .run => whileIdle startRun s
  | .snapshot => whileIdle takeSnapshot s
  | .disassemble w => answer (.text (display w)) s

end Sys2Proof.Machine
end

