-- ==== Sys2Proof/Machine/Sequencer.lean ====
section
/-! DEFINITION. The control sequencer (42_control_sequencer.md): the reference cycle, the run loop's check, and where a
word is fetched from. -/

namespace Sys2Proof.Machine

/-- R151, after the fetch: the case on `Decode(IR)`. -/
def executeDecoded (d : Decoded) (s : State) : Host.Outcome State Fault Refusal :=
  match d with
  | .skipEmpty => .next (skipCell s)
  | .skipData => .next (skipCell s)
  | .skipInvalid => .next (skipCell (report .invalidWordFormat s))
  | .instr i => exec i s

/-- R151: the reference cycle, entered with PC ≤ 999. -/
def cycle (s : State) : Host.Outcome State Fault Refusal :=
  executeDecoded (decode (s.mem.read s.regs.pc)) (readIR s.regs.pc s)

/-- R141, R148: one turn of the run loop: at PC 1000 the run ends before any fetch, else one cycle. -/
def runTurn (s : State) : Host.Outcome State Fault Refusal :=
  if isAddress s.regs.pc then cycle s else .next (endRun .ended s)

/-- R140: while RS is RUNNING the core runs; in IDLE, HALTED and ENDED nothing but `Run()` moves it (R230; log 6). -/
def advanceCore (s : State) : Host.Outcome State Fault Refusal :=
  if s.rs = .running then runTurn s else .next s

/-- One step of the machine: it serves the host's request if there is one, else the core takes its turn (log 4). -/
def machineStep (s : State) : Host.Outcome State Fault Refusal :=
  match s.request with
  | some r => .next (serve r (clearPorts s))
  | none => advanceCore (clearPorts s)

/-- The cell the next cycle fetches from, for a state whose next instruction is placed by hand: PC, or the entry point
0 (R242) where PC is no address. -/
def fetchAddress (s : State) : Nat := if isAddress s.regs.pc then s.regs.pc else 0

/-- A word placed where the next step fetches, with the run started and no request in the way (log 3). -/
def placeWord (w : Word) (s : State) : State :=
  { s with
    mem := s.mem.write (fetchAddress s) w
    regs := { s.regs with pc := fetchAddress s }
    rs := .running
    request := none }

end Sys2Proof.Machine
end

