-- ==== Sys2Proof/Safety.lean ====
section
/-! DEFINITION. What a good state is, in the terms of the spec's rules, and what a run without conditions is. -/

namespace Sys2Proof.Machine

/-- The ranges of 10_state.md R20 (PC, PCPrev, AC, MAR) and the canonical form of memory. -/
structure State.Inv (s : State) : Prop where
  /-- R22 -/
  pc_le : s.regs.pc ≤ 1000
  /-- R24 -/
  pcPrev_le : s.regs.pcPrev ≤ 999
  /-- R25 -/
  ac_inRange : s.regs.ac.natAbs ≤ 99999
  /-- R26 -/
  mar_le : ∀ a, s.regs.mar = some a → a ≤ 999
  /-- R30 -/
  mem_wf : s.mem.wf

/-- R199: what an ended run left. RS = HALTED: the run ended at an HLT whose address is PCPrev (its word is in IR, the
pre-increment gives PC). RS = ENDED: PC is 1000 and PCPrev is 999. R22: PC = 1000 comes only by an increment from 999. -/
structure State.EndInv (s : State) : Prop where
  pc_terminal : s.regs.pc = 1000 → s.regs.pcPrev = 999
  ended : s.rs = .ended → s.regs.pc = 1000 ∧ s.regs.pcPrev = 999
  halted : s.rs = .halted → s.regs.pc = s.regs.pcPrev + 1 ∧ decode s.regs.ir = .instr .hlt

/-- R76: a memory written only through the gate and by STA holds no Invalid word, and no cycle has reported one. -/
structure State.Gated (s : State) : Prop where
  mem_gated : ∀ a, decode (s.mem.read a) ≠ .skipInvalid
  cl_gated : ∀ r ∈ s.cl, r.kind ≠ .invalidWordFormat

/-- R32, R199: no condition has been recorded in the run. -/
def State.NoCondition (s : State) : Prop := s.cl = []

/-! ### How an instruction ends -/

/-- R146: the registers after the pre-increment. -/
def RegisterFile.incremented (r : RegisterFile) : RegisterFile := { r with pcPrev := r.pc, pc := r.pc + 1 }

/-- R197: a notification of a micro-step, not of a condition. -/
def Notification.isMicroStep : Notification → Bool
  | .microStep _ _ => true
  | .condition _ => false

/-- `n` notifications, all of micro-steps (R249 counts them). -/
def MicroSteps (obs : List Notification) (n : Nat) : Prop :=
  obs.length = n ∧ obs.all Notification.isMicroStep = true

/-- The outcome is a next state: the registers become `r` in `n` micro-steps, and nothing else of `s` changes but what
the observer was shown. -/
def CompletesWith (out : Host.Outcome State Fault Refusal) (s : State) (r : RegisterFile) (n : Nat) : Prop :=
  ∃ obs, out = .next { s with regs := r, observed := s.observed ++ obs } ∧ MicroSteps obs n

/-- The outcome is a next state: the registers become `r` in `n` micro-steps, one record of condition `c` with those
registers is appended to CL and shown to the observer (R217), and nothing else of `s` changes. -/
def ReportsCondition (out : Host.Outcome State Fault Refusal) (s : State) (r : RegisterFile) (c : Condition)
    (n : Nat) : Prop :=
  ∃ obs, out = .next { s with
    regs := r
    cl := s.cl ++ [{ kind := c, pc := r.pc, pcPrev := r.pcPrev, ir := r.ir }]
    observed := s.observed ++ obs ++ [.condition { kind := c, pc := r.pc, pcPrev := r.pcPrev, ir := r.ir }] } ∧
    MicroSteps obs n

/-- The outcome is a next state: the registers become `r` in `n` micro-steps, the cell at `a` reads `w`, every other
address reads as before, and nothing else of `s` changes but what the observer was shown. -/
def StoresWord (out : Host.Outcome State Fault Refusal) (s : State) (r : RegisterFile) (a : Nat) (w : Word)
    (n : Nat) : Prop :=
  ∃ obs m, out = .next { s with regs := r, mem := m, observed := s.observed ++ obs } ∧ MicroSteps obs n ∧
    m.read a = w ∧ ∀ b, b ≠ a → m.read b = s.mem.read b

end Sys2Proof.Machine
end

