-- ==== Sys2Proof/Certificates/Slice0/Obligations.lean ====
section
/-! DEFINITION. The statements for the provers. A docstring names the rule a statement formalises; `D<n>` marks a point
that the spec decides for itself (spec/92_eei_decisions.md), `log n` a choice of the model. -/

open Sys2Proof Sys2Proof.Machine

/-! ### Reset and the word codec -/

/-- R36, R240 (D19, D22, D23; the port fields are the model's, log 4, log 5): what power-on leaves. -/
def Obligations.PowerOnState : Prop :=
  (∀ a, State.reset.mem.read a = .empty) ∧ State.reset.regs.pc = 0 ∧ State.reset.regs.pcPrev = 0 ∧
  State.reset.regs.ac = 0 ∧ formatSigned State.reset.regs.ac = .chars '+' '0' '0' '0' '0' '0' ∧
  State.reset.regs.mar = none ∧ State.reset.regs.mdr = .empty ∧ State.reset.regs.ir = .empty ∧
  State.reset.rs = .idle ∧ State.reset.cl = [] ∧ State.reset.request = none ∧ State.reset.reply = none ∧
  State.reset.observed = []

/-- R87 and spec/95_test_vectors.md V-CD (D1): words written out from the opcode map, one of each family. -/
def Obligations.WrittenWordsDecode : Prop :=
  decode (.chars '0' '0' '0' '0' '0' '0') = .instr .nop ∧
  decode (.chars '0' '1' '0' '0' '0' '0') = .instr .cla ∧
  decode (.chars '0' '2' '1' '0' '0' '3') = .instr (.ldaAbs 3) ∧
  decode (.chars '0' '3' '2' '9' '9' '9') = .instr (.staInd 999) ∧
  decode (.chars '0' '4' '3' '-' '9' '9') = .instr (.addInm (.minus 99)) ∧
  decode (.chars '0' '5' '4' '+' '0' '7') = .instr (.subRel (.plus 7)) ∧
  decode (.chars '0' '6' '0' '0' '0' '0') = .instr .neg ∧
  decode (.chars '0' '7' '4' '0' '0' '3') = .instr (.jmpRel (.bare 3)) ∧
  decode (.chars '0' '8' '0' '0' '0' '0') = .instr .hlt

/-- R71. -/
def Obligations.SignedWordsAreData : Prop :=
  ∀ c0 c1 c2 c3 c4 c5 : Char, (c0 = '+' ∨ c0 = '-') → decode (.chars c0 c1 c2 c3 c4 c5) = .skipData

/-- R70, R79 (D1, D2): every well-formed instruction, of every row, is read back from its word. -/
def Obligations.DecodeAfterEncode : Prop :=
  ∀ i : Instr, i.wf = true → decode (encode i) = .instr i

/-- R70, R79 (D3): what decodes to an instruction is well formed, and is that instruction's own word but for the tail of
an operand-less opcode, which the decoder does not examine. -/
def Obligations.EncodeAfterDecode : Prop :=
  ∀ (c0 c1 c2 c3 c4 c5 : Char) (i : Instr), decode (.chars c0 c1 c2 c3 c4 c5) = .instr i →
    i.wf = true ∧
    (i.operand ≠ none → encode i = .chars c0 c1 c2 c3 c4 c5) ∧
    (i.operand = none → encode i = .chars c0 c1 '0' '0' '0' '0')

/-- R70, R72 (D4): exactly which six-character words are illegal encodings. The first characters are `d0 d1`, the mode
character `a`, the operand field `p0 p1 p2`; codes 0, 1, 6 and 8 take no operand. -/
def Obligations.IllegalEncodings : Prop :=
  ∀ d0 d1 a p0 p1 p2 : Char, decode (.chars d0 d1 a p0 p1 p2) = .skipInvalid ↔
    ¬(d0 = '+' ∨ d0 = '-') ∧
    (isDigits [d0, d1] = false ∨ 8 < num [d0, d1] ∨
      (num [d0, d1] ∈ [2, 3, 4, 5, 7] ∧
        (a ∉ ['1', '2', '3', '4'] ∨
         (a ∈ ['1', '2'] ∧ isDigits [p0, p1, p2] = false) ∨
         (a ∈ ['3', '4'] ∧ isDigits [p0, p1, p2] = false ∧
           ¬((p0 = '+' ∨ p0 = '-') ∧ isDigits [p1, p2] = true)))))

/-- R75: the gate returns the text it was given. -/
def Obligations.GateReturnsItsText : Prop :=
  ∀ (t : Text) (w : Word), validate t = .ok w → w.text = t

/-- R76 (D3, D4, D5): the gate never passes an Invalid word. -/
def Obligations.GateNeverPassesInvalid : Prop :=
  ∀ (t : Text) (w : Word), validate t = .ok w →
    decode w = .skipEmpty ∨ (decode w = .skipData ∧ isData w = true) ∨ ∃ i, decode w = .instr i

/-- R75 (D2, D3): the gate passes the word of every well-formed instruction. -/
def Obligations.GatePassesEncoded : Prop :=
  ∀ i : Instr, i.wf = true → validate (encode i).text = .ok (encode i)

/-- R86 (D2, D6, D28): the round trip of the disassembler and the assembler. -/
def Obligations.AssembleAfterDisplay : Prop :=
  ∀ (t : Text) (w : Word), validate t = .ok w → assemble (display w) = .ok w

/-- R79, R80, R83 (D2, D7): the line of a well-formed instruction assembles to its word, with any blanks before, between
and after its tokens, and a blank line to `Empty`. -/
def Obligations.AssembleInstructionLine : Prop :=
  (∀ blanks : Text, blanks.all isBlank = true → assemble blanks = .ok .empty) ∧
  (∀ (i : Instr) (b0 b1 : Text), i.wf = true → i.operand = none →
    b0.all isBlank = true → b1.all isBlank = true →
    assemble (b0 ++ opcodeName i.opcode ++ b1) = .ok (encode i)) ∧
  (∀ (i : Instr) (o : Operand) (b0 b1 b2 b3 : Text), i.wf = true → i.operand = some o →
    b0.all isBlank = true → b1.all isBlank = true → b2.all isBlank = true → b3.all isBlank = true →
    b1 ≠ [] → b2 ≠ [] →
    assemble (b0 ++ opcodeName i.opcode ++ b1 ++ modeToken o.mode ++ b2 ++ [o.chars.1, o.chars.2.1, o.chars.2.2] ++ b3) =
      .ok (encode i))

/-- R78, R80: the mnemonic counts only through its upper case. -/
def Obligations.MnemonicCaseInsensitive : Prop :=
  ∀ (t0 : Text) (op : Opcode) (rest : List Text), t0.map upperChar = opcodeName op →
    assembleTokens (t0 :: rest) = assembleTokens (opcodeName op :: rest)

/-! ### The decimal arithmetic unit -/

/-- R101, R102 (D9): the form of a signed value, and that it parses back; the one DataWord that does not. -/
def Obligations.FormatSignedParses : Prop :=
  (∀ n : Int, n.natAbs ≤ 99999 →
    (formatSigned n).text = (if n < 0 then '-' else '+') :: pad 5 n.natAbs ∧
    isData (formatSigned n) = true ∧ dataValue (formatSigned n) = n) ∧
  (∀ w : Word, isData w = true → w ≠ .chars '-' '0' '0' '0' '0' '0' → formatSigned (dataValue w) = w) ∧
  formatSigned (dataValue (.chars '-' '0' '0' '0' '0' '0')) = .chars '+' '0' '0' '0' '0' '0'

/-- R103: the exact sum, or Overflow. -/
def Obligations.AddExactOrOverflow : Prop :=
  ∀ a b : Int, a.natAbs ≤ 99999 → b.natAbs ≤ 99999 →
    ((a + b).natAbs ≤ 99999 → add a b = .result (a + b)) ∧
    (99999 < (a + b).natAbs → add a b = .overflow)

/-- R104 (D25): the exact difference `a - b`, or Overflow. -/
def Obligations.SubtractExactOrOverflow : Prop :=
  ∀ a b : Int, a.natAbs ≤ 99999 → b.natAbs ≤ 99999 →
    ((a - b).natAbs ≤ 99999 → subtract a b = .result (a - b)) ∧
    (99999 < (a - b).natAbs → subtract a b = .overflow)

/-- R106. -/
def Obligations.NegateInRange : Prop :=
  ∀ a : Int, a.natAbs ≤ 99999 → negate a = -a ∧ inRange (negate a) = true ∧
    (a = 0 → formatSigned (negate a) = .chars '+' '0' '0' '0' '0' '0')

/-! ### Memory -/

/-- The model's choice of how memory is held (log 1): two memories in canonical form that read alike are equal. -/
def Obligations.ReadsDetermineMemory : Prop :=
  ∀ m1 m2 : Memory, m1.wf → m2.wf → (∀ a, a ≤ 999 → m1.read a = m2.read a) → m1 = m2

/-- R54 (derived in the spec from R46): in a step that serves no host request, no cell comes to hold an instruction word
it did not hold before. -/
def Obligations.RunCreatesNoInstruction : Prop :=
  ∀ (s t : State) (a : Nat) (i : Instr), s.request = none → step s = .next t →
    decode (t.mem.read a) = .instr i → t.mem.read a = s.mem.read a

/-! ### What each instruction does -/

/-- R160: NOP. -/
def Obligations.NopCompletes : Prop :=
  ∀ s : State, CompletesWith (exec .nop s) s s.regs.incremented 2

/-- R161: CLA. -/
def Obligations.ClaCompletes : Prop :=
  ∀ s : State, CompletesWith (exec .cla s) s { s.regs.incremented with ac := 0 } 3

/-- R172: NEG. -/
def Obligations.NegCompletes : Prop :=
  ∀ s : State, CompletesWith (exec .neg s) s { s.regs.incremented with ac := -s.regs.ac } 3

/-- R181, R194 (D23): HLT ends the run and returns to the host. -/
def Obligations.HltCompletes : Prop :=
  ∀ s : State, ∃ obs, exec .hlt s = .next { s with
    regs := s.regs.incremented
    rs := .halted
    reply := some (.ran .halted)
    observed := s.observed ++ obs } ∧ MicroSteps obs 2

/-- R162, R126 (D11, D15, D18): LDA ABS, LDA IND, LDA INM, LDA REL. -/
def Obligations.LdaCompletes : Prop :=
  (∀ (p : Nat) (s : State), p ≤ 999 → isData (s.mem.read p) = true →
    CompletesWith (exec (.ldaAbs p) s) s { s.regs.incremented with
      mar := some p, mdr := s.mem.read p, ac := dataValue (s.mem.read p) } 5) ∧
  (∀ (p a : Nat) (s : State), p ≤ 999 → isData (s.mem.read p) = true → dataValue (s.mem.read p) = a → a ≤ 999 →
    isData (s.mem.read a) = true →
    CompletesWith (exec (.ldaInd p) s) s { s.regs.incremented with
      mar := some a, mdr := s.mem.read a, ac := dataValue (s.mem.read a) } 7) ∧
  (∀ (d : SField) (s : State),
    CompletesWith (exec (.ldaInm d) s) s { s.regs.incremented with ac := sval d } 3) ∧
  (∀ (d : SField) (a : Nat) (s : State), (a : Int) = s.regs.pc + 1 + sval d → a ≤ 999 →
    isData (s.mem.read a) = true →
    CompletesWith (exec (.ldaRel d) s) s { s.regs.incremented with
      mar := some a, mdr := s.mem.read a, ac := dataValue (s.mem.read a) } 5)

/-- R163, R125 (D11, D15, D16): STA ABS, STA IND, STA REL. The address stored to is the resolver's own. -/
def Obligations.StaCompletes : Prop :=
  (∀ (p : Nat) (s : State), p ≤ 999 → s.regs.ac.natAbs ≤ 99999 →
    StoresWord (exec (.staAbs p) s) s { s.regs.incremented with mar := some p } p (formatSigned s.regs.ac) 4) ∧
  (∀ (p a : Nat) (s : State), p ≤ 999 → s.regs.ac.natAbs ≤ 99999 → pointerAddress (s.mem.read p) = some a →
    StoresWord (exec (.staInd p) s) s { s.regs.incremented with mar := some a, mdr := s.mem.read p } a
      (formatSigned s.regs.ac) 6) ∧
  (∀ (d : SField) (a : Nat) (s : State), s.regs.ac.natAbs ≤ 99999 → relativeAddress d (preIncrement s) = some a →
    StoresWord (exec (.staRel d) s) s { s.regs.incremented with mar := some a } a (formatSigned s.regs.ac) 4)

/-- R170, R126 (D11, D15, D18): ADD ABS, ADD IND, ADD INM, ADD REL, where the sum is in range. -/
def Obligations.AddCompletes : Prop :=
  (∀ (p : Nat) (s : State), p ≤ 999 → isData (s.mem.read p) = true →
    (s.regs.ac + dataValue (s.mem.read p)).natAbs ≤ 99999 →
    CompletesWith (exec (.addAbs p) s) s { s.regs.incremented with
      mar := some p, mdr := s.mem.read p, ac := s.regs.ac + dataValue (s.mem.read p) } 5) ∧
  (∀ (p a : Nat) (s : State), p ≤ 999 → isData (s.mem.read p) = true → dataValue (s.mem.read p) = a → a ≤ 999 →
    isData (s.mem.read a) = true → (s.regs.ac + dataValue (s.mem.read a)).natAbs ≤ 99999 →
    CompletesWith (exec (.addInd p) s) s { s.regs.incremented with
      mar := some a, mdr := s.mem.read a, ac := s.regs.ac + dataValue (s.mem.read a) } 7) ∧
  (∀ (d : SField) (s : State), (s.regs.ac + sval d).natAbs ≤ 99999 →
    CompletesWith (exec (.addInm d) s) s { s.regs.incremented with ac := s.regs.ac + sval d } 3) ∧
  (∀ (d : SField) (a : Nat) (s : State), (a : Int) = s.regs.pc + 1 + sval d → a ≤ 999 →
    isData (s.mem.read a) = true → (s.regs.ac + dataValue (s.mem.read a)).natAbs ≤ 99999 →
    CompletesWith (exec (.addRel d) s) s { s.regs.incremented with
      mar := some a, mdr := s.mem.read a, ac := s.regs.ac + dataValue (s.mem.read a) } 5)

/-- R171, R126 (D11, D15, D18, D25): SUB ABS, SUB IND, SUB INM, SUB REL, where the difference is in range. -/
def Obligations.SubCompletes : Prop :=
  (∀ (p : Nat) (s : State), p ≤ 999 → isData (s.mem.read p) = true →
    (s.regs.ac - dataValue (s.mem.read p)).natAbs ≤ 99999 →
    CompletesWith (exec (.subAbs p) s) s { s.regs.incremented with
      mar := some p, mdr := s.mem.read p, ac := s.regs.ac - dataValue (s.mem.read p) } 5) ∧
  (∀ (p a : Nat) (s : State), p ≤ 999 → isData (s.mem.read p) = true → dataValue (s.mem.read p) = a → a ≤ 999 →
    isData (s.mem.read a) = true → (s.regs.ac - dataValue (s.mem.read a)).natAbs ≤ 99999 →
    CompletesWith (exec (.subInd p) s) s { s.regs.incremented with
      mar := some a, mdr := s.mem.read a, ac := s.regs.ac - dataValue (s.mem.read a) } 7) ∧
  (∀ (d : SField) (s : State), (s.regs.ac - sval d).natAbs ≤ 99999 →
    CompletesWith (exec (.subInm d) s) s { s.regs.incremented with ac := s.regs.ac - sval d } 3) ∧
  (∀ (d : SField) (a : Nat) (s : State), (a : Int) = s.regs.pc + 1 + sval d → a ≤ 999 →
    isData (s.mem.read a) = true → (s.regs.ac - dataValue (s.mem.read a)).natAbs ≤ 99999 →
    CompletesWith (exec (.subRel d) s) s { s.regs.incremented with
      mar := some a, mdr := s.mem.read a, ac := s.regs.ac - dataValue (s.mem.read a) } 5)

/-- R180, R127, R130 (D11, D12, D17): JMP ABS, JMP IND, JMP REL, with no pre-increment. -/
def Obligations.JmpCompletes : Prop :=
  (∀ (p : Nat) (s : State),
    CompletesWith (exec (.jmpAbs p) s) s { s.regs with pcPrev := s.regs.pc, pc := p } 2) ∧
  (∀ (p a : Nat) (s : State), p ≤ 999 → isData (s.mem.read p) = true → dataValue (s.mem.read p) = a → a ≤ 999 →
    CompletesWith (exec (.jmpInd p) s) s { s.regs with
      mar := some a, mdr := s.mem.read p, pcPrev := s.regs.pc, pc := a } 5) ∧
  (∀ (d : SField) (a : Nat) (s : State), (a : Int) = s.regs.pc + sval d → a ≤ 999 →
    CompletesWith (exec (.jmpRel d) s) s { s.regs with pcPrev := s.regs.pc, pc := a } 2)

/-- R73, R163, R180, R214 (D13, D14): STA INM and JMP INM report InvalidInstruction, STA after its pre-increment, JMP
with PC and PCPrev as they were. That report is all either does. -/
def Obligations.ImmediateTargetsReport : Prop :=
  ∀ (d : SField) (s : State),
    ReportsCondition (exec (.staInm d) s) s s.regs.incremented .invalidInstruction 2 ∧
    ReportsCondition (exec (.jmpInm d) s) s s.regs .invalidInstruction 0

/-! ### Conditions -/

/-- R211, R105 (D25 for SUB): ADD and SUB report Overflow and leave AC. -/
def Obligations.OverflowReported : Prop :=
  (∀ (p : Nat) (s : State), p ≤ 999 → isData (s.mem.read p) = true →
    (99999 < (s.regs.ac + dataValue (s.mem.read p)).natAbs →
      ReportsCondition (exec (.addAbs p) s) s { s.regs.incremented with
        mar := some p, mdr := s.mem.read p } .overflow 4) ∧
    (99999 < (s.regs.ac - dataValue (s.mem.read p)).natAbs →
      ReportsCondition (exec (.subAbs p) s) s { s.regs.incremented with
        mar := some p, mdr := s.mem.read p } .overflow 4)) ∧
  (∀ (p a : Nat) (s : State), p ≤ 999 → isData (s.mem.read p) = true → dataValue (s.mem.read p) = a → a ≤ 999 →
    isData (s.mem.read a) = true →
    (99999 < (s.regs.ac + dataValue (s.mem.read a)).natAbs →
      ReportsCondition (exec (.addInd p) s) s { s.regs.incremented with
        mar := some a, mdr := s.mem.read a } .overflow 6) ∧
    (99999 < (s.regs.ac - dataValue (s.mem.read a)).natAbs →
      ReportsCondition (exec (.subInd p) s) s { s.regs.incremented with
        mar := some a, mdr := s.mem.read a } .overflow 6)) ∧
  (∀ (d : SField) (s : State),
    (99999 < (s.regs.ac + sval d).natAbs →
      ReportsCondition (exec (.addInm d) s) s s.regs.incremented .overflow 2) ∧
    (99999 < (s.regs.ac - sval d).natAbs →
      ReportsCondition (exec (.subInm d) s) s s.regs.incremented .overflow 2)) ∧
  (∀ (d : SField) (a : Nat) (s : State), (a : Int) = s.regs.pc + 1 + sval d → a ≤ 999 →
    isData (s.mem.read a) = true →
    (99999 < (s.regs.ac + dataValue (s.mem.read a)).natAbs →
      ReportsCondition (exec (.addRel d) s) s { s.regs.incremented with
        mar := some a, mdr := s.mem.read a } .overflow 4) ∧
    (99999 < (s.regs.ac - dataValue (s.mem.read a)).natAbs →
      ReportsCondition (exec (.subRel d) s) s { s.regs.incremented with
        mar := some a, mdr := s.mem.read a } .overflow 4))

/-- R212, R124, R130 (D13, D15, C10): RELATIVE outside 0..999. LDA, STA, ADD and SUB write nothing after the
pre-increment; JMP, whose base is its own address, writes nothing. -/
def Obligations.OutOfBoundsReported : Prop :=
  (∀ (d : SField) (s : State),
    ((s.regs.pc : Int) + 1 + sval d < 0 ∨ 999 < (s.regs.pc : Int) + 1 + sval d) →
    ReportsCondition (exec (.ldaRel d) s) s s.regs.incremented .outOfBounds 2 ∧
    ReportsCondition (exec (.staRel d) s) s s.regs.incremented .outOfBounds 2 ∧
    ReportsCondition (exec (.addRel d) s) s s.regs.incremented .outOfBounds 2 ∧
    ReportsCondition (exec (.subRel d) s) s s.regs.incremented .outOfBounds 2) ∧
  (∀ (d : SField) (s : State), ((s.regs.pc : Int) + sval d < 0 ∨ 999 < (s.regs.pc : Int) + sval d) →
    ReportsCondition (exec (.jmpRel d) s) s s.regs .outOfBounds 0)

/-- R215 (D10): LDA, ADD and SUB of a word that is no DataWord, in ABS, IND and REL. -/
def Obligations.NonDataOperandReported : Prop :=
  (∀ (p : Nat) (s : State), p ≤ 999 → isData (s.mem.read p) = false →
    ReportsCondition (exec (.ldaAbs p) s) s { s.regs.incremented with
      mar := some p, mdr := s.mem.read p } .nonDataOperand 4 ∧
    ReportsCondition (exec (.addAbs p) s) s { s.regs.incremented with
      mar := some p, mdr := s.mem.read p } .nonDataOperand 4 ∧
    ReportsCondition (exec (.subAbs p) s) s { s.regs.incremented with
      mar := some p, mdr := s.mem.read p } .nonDataOperand 4) ∧
  (∀ (p a : Nat) (s : State), p ≤ 999 → isData (s.mem.read p) = true → dataValue (s.mem.read p) = a → a ≤ 999 →
    isData (s.mem.read a) = false →
    ReportsCondition (exec (.ldaInd p) s) s { s.regs.incremented with
      mar := some a, mdr := s.mem.read a } .nonDataOperand 6 ∧
    ReportsCondition (exec (.addInd p) s) s { s.regs.incremented with
      mar := some a, mdr := s.mem.read a } .nonDataOperand 6 ∧
    ReportsCondition (exec (.subInd p) s) s { s.regs.incremented with
      mar := some a, mdr := s.mem.read a } .nonDataOperand 6) ∧
  (∀ (d : SField) (a : Nat) (s : State), (a : Int) = s.regs.pc + 1 + sval d → a ≤ 999 →
    isData (s.mem.read a) = false →
    ReportsCondition (exec (.ldaRel d) s) s { s.regs.incremented with
      mar := some a, mdr := s.mem.read a } .nonDataOperand 4 ∧
    ReportsCondition (exec (.addRel d) s) s { s.regs.incremented with
      mar := some a, mdr := s.mem.read a } .nonDataOperand 4 ∧
    ReportsCondition (exec (.subRel d) s) s { s.regs.incremented with
      mar := some a, mdr := s.mem.read a } .nonDataOperand 4)

/-- R216, R122 (D11, D13): an INDIRECT pointer that is no DataWord of value 0..999. -/
def Obligations.BadIndirectAddressReported : Prop :=
  ∀ (p : Nat) (s : State), p ≤ 999 →
    (isData (s.mem.read p) = false ∨ dataValue (s.mem.read p) < 0 ∨ 999 < dataValue (s.mem.read p)) →
    ReportsCondition (exec (.ldaInd p) s) s { s.regs.incremented with
      mar := some p, mdr := s.mem.read p } .badIndirectAddress 4 ∧
    ReportsCondition (exec (.staInd p) s) s { s.regs.incremented with
      mar := some p, mdr := s.mem.read p } .badIndirectAddress 4 ∧
    ReportsCondition (exec (.addInd p) s) s { s.regs.incremented with
      mar := some p, mdr := s.mem.read p } .badIndirectAddress 4 ∧
    ReportsCondition (exec (.subInd p) s) s { s.regs.incremented with
      mar := some p, mdr := s.mem.read p } .badIndirectAddress 4 ∧
    ReportsCondition (exec (.jmpInd p) s) s { s.regs with
      mar := some p, mdr := s.mem.read p } .badIndirectAddress 2

/-- R219, R217, R32 (D19): a step of the core appends at most one record to CL, and it carries the fetched word. -/
def Obligations.AtMostOneConditionPerCycle : Prop :=
  ∀ s t : State, s.request = none → step s = .next t →
    t.cl = s.cl ∨ ∃ r, t.cl = s.cl ++ [r] ∧ r.ir = s.mem.read s.regs.pc ∧ .condition r ∈ t.observed

/-! ### What no instruction does: frames over all instructions -/

/-- R20, R25 (the writers of AC): only CLA, LDA, ADD, SUB and NEG change AC. -/
def Obligations.OnlyArithmeticAndLoadsWriteAC : Prop :=
  ∀ (i : Instr) (s t : State), exec i s = .next t → i.opcode ∉ [.cla, .lda, .add, .sub, .neg] →
    t.regs.ac = s.regs.ac

/-- R46, R163: only STA changes memory, one cell of 0..999, to a DataWord; and no instruction changes IR (R28) or what
the host asked. -/
def Obligations.OnlyStaWritesMemory : Prop :=
  ∀ (i : Instr) (s t : State), exec i s = .next t →
    t.regs.ir = s.regs.ir ∧ t.request = s.request ∧
    (t.mem = s.mem ∨
      (i.opcode = .sta ∧ ∃ a, a ≤ 999 ∧ t.regs.mar = some a ∧ t.mem.read a = formatSigned s.regs.ac ∧
        isData (t.mem.read a) = true ∧ ∀ b, b ≠ a → t.mem.read b = s.mem.read b))

/-- R183, R140, R217: only HLT changes the sequencer state, and HLT always does. -/
def Obligations.OnlyHltChangesRunState : Prop :=
  ∀ (i : Instr) (s t : State), exec i s = .next t →
    (i.opcode ≠ .hlt → t.rs = s.rs ∧ t.reply = s.reply) ∧ (i.opcode = .hlt → t.rs = .halted)

/-- R146, R24, R23: whatever else it does and whatever it reports, every instruction but JMP leaves PC one further and
PCPrev at its own address. -/
def Obligations.PreIncrementAlwaysHappens : Prop :=
  ∀ (i : Instr) (s t : State), exec i s = .next t → i.opcode ≠ .jmp →
    t.regs.pc = s.regs.pc + 1 ∧ t.regs.pcPrev = s.regs.pc

/-- R22, R180, R149 (D13): a JMP goes to 0..999 with PCPrev its own address and no record, or stays with one record. -/
def Obligations.JmpStaysInMemory : Prop :=
  ∀ (i : Instr) (s t : State), i.wf = true → i.opcode = .jmp → exec i s = .next t →
    (t.regs.pc ≤ 999 ∧ t.regs.pcPrev = s.regs.pc ∧ t.cl = s.cl) ∨
    (t.regs.pc = s.regs.pc ∧ t.regs.pcPrev = s.regs.pcPrev ∧ ∃ r, t.cl = s.cl ++ [r])

/-- R26, R27, R123 (D16, D17, D18): MAR changes only in ABS, IND or REL resolution, and not in JMP ABS or JMP REL; MDR
only where memory is read, so not in STA ABS or STA REL either. -/
def Obligations.StagingRegisterWriters : Prop :=
  ∀ (i : Instr) (s t : State), exec i s = .next t →
    ((i.operand = none ∨ (∃ d, i.operand = some (.inm d)) ∨
      (i.opcode = .jmp ∧ ∀ p, i.operand ≠ some (.ind p))) → t.regs.mar = s.regs.mar ∧ t.regs.mdr = s.regs.mdr) ∧
    ((i.opcode = .sta ∧ ∀ p, i.operand ≠ some (.ind p)) → t.regs.mdr = s.regs.mdr)

/-! ### The sequencer -/

/-- R142, R145, R151: a step whose cell decodes to an instruction is `exec` of it, after the fetch into IR. What the step
adds is the fetch, shown to the observer, and clear ports (log 5). -/
def Obligations.StepRunsDecoded : Prop :=
  ∀ (s : State) (i : Instr), s.request = none → s.rs = .running → s.regs.pc ≤ 999 →
    decode (s.mem.read s.regs.pc) = .instr i →
    step s = exec i { s with
      regs := { s.regs with ir := s.mem.read s.regs.pc }
      reply := none
      observed := [.microStep { s.regs with ir := s.mem.read s.regs.pc } (some s.regs.pc)] }

/-- R143 (R249 counts the micro-steps): an `Empty` cell or a word that begins with a sign is skipped. The observer sees
the fetch and the two writes, in that order, and nothing is reported. -/
def Obligations.StepSkipsData : Prop :=
  ∀ s : State, s.request = none → s.rs = .running → s.regs.pc ≤ 999 →
    (decode (s.mem.read s.regs.pc) = .skipEmpty ∨ decode (s.mem.read s.regs.pc) = .skipData) →
    step s = .next { s with
      regs := { s.regs with ir := s.mem.read s.regs.pc, pcPrev := s.regs.pc, pc := s.regs.pc + 1 }
      reply := none
      observed := [
        .microStep { s.regs with ir := s.mem.read s.regs.pc } (some s.regs.pc),
        .microStep { s.regs with ir := s.mem.read s.regs.pc, pcPrev := s.regs.pc } none,
        .microStep { s.regs with ir := s.mem.read s.regs.pc, pcPrev := s.regs.pc, pc := s.regs.pc + 1 } none] }

/-- R144, R213 (D20): an Invalid word is reported with PC its address, then skipped, in that order. -/
def Obligations.StepReportsInvalid : Prop :=
  ∀ (s : State) (r : CondRecord), s.request = none → s.rs = .running → s.regs.pc ≤ 999 →
    decode (s.mem.read s.regs.pc) = .skipInvalid →
    r = { kind := .invalidWordFormat, pc := s.regs.pc, pcPrev := s.regs.pcPrev, ir := s.mem.read s.regs.pc } →
    step s = .next { s with
      regs := { s.regs with ir := s.mem.read s.regs.pc, pcPrev := s.regs.pc, pc := s.regs.pc + 1 }
      cl := s.cl ++ [r]
      reply := none
      observed := [
        .microStep { s.regs with ir := s.mem.read s.regs.pc } (some s.regs.pc),
        .condition r,
        .microStep { s.regs with ir := s.mem.read s.regs.pc, pcPrev := s.regs.pc } none,
        .microStep { s.regs with ir := s.mem.read s.regs.pc, pcPrev := s.regs.pc, pc := s.regs.pc + 1 } none] }

/-- R140, R141, R148, R230 (D23, log 6): at PC 1000 the run ends before any fetch; and when no run is in progress and the
host asks nothing, the core does nothing. -/
def Obligations.StepEndsOrIdles : Prop :=
  ∀ s : State, s.request = none →
    (s.rs = .running → 1000 ≤ s.regs.pc →
      step s = .next { s with rs := .ended, reply := some (.ran .ended), observed := [] }) ∧
    (s.rs ≠ .running → step s = .next { s with reply := none, observed := [] })

/-- R197, R150, R142 (log 5): what the observer sees of a running step begins with the fetch, touching PC, and its last
micro-step shows the final registers. -/
def Obligations.ObserverSeesFetchAndResult : Prop :=
  ∀ s t : State, s.request = none → s.rs = .running → s.regs.pc ≤ 999 → step s = .next t →
    (∃ rest, t.observed =
      .microStep { s.regs with ir := s.mem.read s.regs.pc } (some s.regs.pc) :: rest) ∧
    ∃ touched, (t.observed.filter Notification.isMicroStep).getLast? = some (.microStep t.regs touched)

/-- R150, R197 (log 5): the step does not depend on what the observer or the host was told before. -/
def Obligations.ObserverHasNoEffect : Prop :=
  ∀ (s : State) (obs : List Notification) (r : Option HostReply),
    step { s with observed := obs, reply := r } = step s

/-! ### The host port -/

/-- R37, R241, R141 (D19, D21; log 4): `Run()` while no run is in progress. -/
def Obligations.RunStarts : Prop :=
  ∀ s : State, s.request = some .run → s.rs ≠ .running →
    step s = .next { s with
      rs := .running
      regs := { s.regs with pc := 0, pcPrev := 0 }
      cl := []
      request := none
      reply := none
      observed := [] }

/-- R190 (D26; log 4): during a run Load, Edit, Run and Snapshot are refused with Busy and change nothing; Disassemble
is answered whether a run is in progress or not (R196, D28). -/
def Obligations.BusyDuringRun : Prop :=
  (∀ (s : State) (r : HostRequest), s.request = some r → s.rs = .running → (∀ w, r ≠ .disassemble w) →
    step s = .next { s with request := none, reply := some (.refused .busy), observed := [] }) ∧
  (∀ (s : State) (w : Word), s.request = some (.disassemble w) →
    step s = .next { s with request := none, reply := some (.text (display w)), observed := [] })

/-- R195 (D19): `Snapshot()` while no run is in progress. -/
def Obligations.SnapshotReportsState : Prop :=
  ∀ s : State, s.request = some .snapshot → s.rs ≠ .running →
    step s = .next { s with
      request := none
      reply := some (.snapshot s.mem s.regs s.rs s.cl)
      observed := [] }

/-- R193, R75 (D5, D27; the reply to a stored edit is log 15): `Edit(a, text)` while no run is in progress. -/
def Obligations.EditStoresOrRefuses : Prop :=
  ∀ (s : State) (a : Int) (t : Text), s.request = some (.edit a t) → s.rs ≠ .running →
    ((a < 0 ∨ 999 < a) → step s = .next { s with
      request := none, reply := some (.refused .addressOutOfRange), observed := [] }) ∧
    (∀ k, 0 ≤ a → a ≤ 999 → validate t = .error k → step s = .next { s with
      request := none, reply := some (.refused (.badText k)), observed := [] }) ∧
    (∀ w, 0 ≤ a → a ≤ 999 → s.mem.wf → validate t = .ok w → ∃ m, step s = .next { s with
      mem := m, request := none, reply := some .edited, observed := [] } ∧
      m.read a.toNat = w ∧ ∀ b, b ≠ a.toNat → m.read b = s.mem.read b)

/-- R191 (D27; the reply is log 15): a batch whose lines all encode and all have an address stores line `i` at
`start + i`. -/
def Obligations.LoadStoresBatch : Prop :=
  ∀ (s : State) (start : Nat) (lines : List Text) (ws : List Word),
    s.request = some (.load start lines) → s.rs ≠ .running → s.mem.wf → start + lines.length ≤ 1000 →
    lines.map assemble = ws.map Except.ok →
    ∃ m, step s = .next { s with mem := m, request := none, reply := some .loaded, observed := [] } ∧
      ∀ a, m.read a = if start ≤ a then (ws[a - start]?).getD (s.mem.read a) else s.mem.read a

/-- R192, R191 (D27): a batch stops at the first line that fails: the lines before it stay stored, it and the later
ones are not. A line that does not encode has an address here; one that does has none. -/
def Obligations.LoadStopsAtFailure : Prop :=
  ∀ (s : State) (start : Nat) (good : List Text) (bad : Text) (rest : List Text) (ws : List Word),
    s.request = some (.load start (good ++ bad :: rest)) → s.rs ≠ .running → s.mem.wf →
    start + good.length ≤ 1000 → good.map assemble = ws.map Except.ok →
    (∀ k, assemble bad = .error k → start + good.length ≤ 999 →
      ∃ m, step s = .next { s with
        mem := m, request := none, reply := some (.loadFailed good.length (.badText k)), observed := [] } ∧
        ∀ a, m.read a = if start ≤ a then (ws[a - start]?).getD (s.mem.read a) else s.mem.read a) ∧
    (∀ w, assemble bad = .ok w → start + good.length = 1000 →
      ∃ m, step s = .next { s with
        mem := m, request := none, reply := some (.loadFailed good.length .addressOutOfRange), observed := [] } ∧
        ∀ a, m.read a = if start ≤ a then (ws[a - start]?).getD (s.mem.read a) else s.mem.read a)

/-! ### Invariants of the machine -/

/-- R20, R22, R24, R25, R26, R30: at reset every register is in its range and memory in its form. -/
def Obligations.ResetInRange : Prop := State.reset.Inv

/-- R20, R22, R24, R25, R26, R30 (log 1 for the form of memory): every step keeps the ranges of the registers and the
form of memory. -/
def Obligations.StepKeepsRanges : Prop :=
  ∀ s t : State, s.Inv → step s = .next t → t.Inv

/-- R44, R149, R217, R101: from a state in range every step answers next. The core never leaves 0..999, no condition
stops it, and no instruction is without a meaning. -/
def Obligations.StepNeverStops : Prop :=
  ∀ s : State, s.Inv → ∃ t, step s = .next t

/-- R199: what an ended run leaves holds at reset, where none has ended. -/
def Obligations.ResetEndsNothing : Prop := State.reset.EndInv

/-- R199, R22, R148, R181: a halted machine stopped at an HLT whose address is PCPrev, an ended one at PC 1000 with
PCPrev 999, and every step keeps that so. -/
def Obligations.StepKeepsRunEnds : Prop :=
  ∀ s t : State, s.Inv → s.EndInv → step s = .next t → t.EndInv

/-- R36, R76: reset memory holds no Invalid word. -/
def Obligations.ResetGated : Prop := State.reset.Gated

/-- R76, R213: memory written only through the gate and by STA never comes to hold an Invalid word, so the runtime
condition InvalidWordFormat is never recorded. -/
def Obligations.StepKeepsGate : Prop :=
  ∀ s t : State, s.Inv → s.Gated → step s = .next t → t.Gated

/-- R246, R180, R154 (D13): a JMP that fails is fetched and fails again for ever, with one more record each cycle. -/
def Obligations.FailedJmpLivelocks : Prop :=
  ∀ (s : State) (i : Instr), s.request = none → s.rs = .running → s.regs.pc ≤ 999 →
    decode (s.mem.read s.regs.pc) = .instr i →
    ((∃ d, i = .jmpInm d) ∨
     (∃ d, i = .jmpRel d ∧ ((s.regs.pc : Int) + sval d < 0 ∨ 999 < (s.regs.pc : Int) + sval d)) ∨
     (∃ p, i = .jmpInd p ∧
       (isData (s.mem.read p) = false ∨ dataValue (s.mem.read p) < 0 ∨ 999 < dataValue (s.mem.read p)))) →
    ∀ n, ∃ t, Host.Core.run Sys2Proof.core n s = .next t ∧
      t.rs = .running ∧ t.regs.pc = s.regs.pc ∧ t.regs.pcPrev = s.regs.pcPrev ∧ t.regs.ac = s.regs.ac ∧
      t.mem = s.mem ∧ t.cl.length = s.cl.length + n
end

