-- ==== Sys2Proof/Laws/Digits.lean ====
section
/-! SUPPORT. Digits, signs and fields: what the codec's small functions give on one another's results. -/

namespace Sys2Proof

/-! ### Digits -/

theorem digitChar_cases (P : Char → Prop) (h : ∀ k < 10, P (Char.ofNat (48 + k))) (d : Nat) : P (digitChar d) :=
  h (d % 10) (Nat.mod_lt d (by omega))

@[simp] theorem isDigit_digitChar (d : Nat) : isDigit (digitChar d) = true :=
  digitChar_cases (fun c => isDigit c = true) (by decide) d

@[simp] theorem isSign_digitChar (d : Nat) : isSign (digitChar d) = false :=
  digitChar_cases (fun c => isSign c = false) (by decide) d

@[simp] theorem dig_digitChar (d : Nat) : dig (digitChar d) = d % 10 := by
  have h : ∀ k < 10, dig (Char.ofNat (48 + k)) = k := by decide
  exact h (d % 10) (Nat.mod_lt d (by omega))

theorem isDigit_iff (c : Char) : isDigit c = true ↔ 48 ≤ c.toNat ∧ c.toNat ≤ 57 := by simp [isDigit]

theorem dig_lt {c : Char} (h : isDigit c = true) : dig c < 10 := by
  have := (isDigit_iff c).mp h
  simp only [dig]
  omega

theorem digitChar_of_dig {c : Char} (h : isDigit c = true) {d : Nat} (hd : d % 10 = dig c) : digitChar d = c := by
  have h' := (isDigit_iff c).mp h
  have : 48 + d % 10 = c.toNat := by rw [hd]; simp only [dig]; omega
  rw [digitChar, this, Char.ofNat_toNat]

@[simp] theorem isSign_iff (c : Char) : isSign c = true ↔ c = '+' ∨ c = '-' := by simp [isSign]

theorem not_isSign_of_isDigit {c : Char} (h : isDigit c = true) : isSign c = false := by
  by_contra hs
  rcases (isSign_iff c).mp (by simpa using hs) with rfl | rfl <;> revert h <;> decide

@[simp] theorem isDigits_nil : isDigits [] = true := rfl

@[simp] theorem isDigits_cons (c : Char) (cs : Text) : isDigits (c :: cs) = (isDigit c && isDigits cs) := by
  simp [isDigits]

theorem num_cons (c : Char) (cs : Text) : num (c :: cs) = dig c * 10 ^ cs.length + num cs := rfl

/-- R68, R69: the value of two digits. -/
theorem num_two (a b : Char) : num [a, b] = dig a * 10 + dig b := by simp [num]

/-- R68, R69: the value of three digits. -/
theorem num_three (a b c : Char) : num [a, b, c] = dig a * 100 + dig b * 10 + dig c := by simp [num]; omega

/-- R63: the value of five digits. -/
theorem num_five (a b c d e : Char) :
    num [a, b, c, d, e] = dig a * 10000 + dig b * 1000 + dig c * 100 + dig d * 10 + dig e := by
  simp [num]; omega

/-! ### Opcodes and modes -/

theorem opcodeOf_code (op : Opcode) : opcodeOf op.code = some op := by cases op <;> rfl

theorem code_of_opcodeOf {n : Nat} {op : Opcode} (h : opcodeOf n = some op) : op.code = n := by
  unfold opcodeOf at h
  split at h <;> simp_all [Opcode.code] <;> subst h <;> rfl

theorem opcode_code_le (op : Opcode) : op.code ≤ 8 := by cases op <;> decide

theorem modeOf_digit (m : Mode) : modeOf m.digit = some m := by cases m <;> decide

theorem digit_of_modeOf {c : Char} {m : Mode} (h : modeOf c = some m) : m.digit = c := by
  unfold modeOf at h
  split_ifs at h <;> simp_all <;> subst h <;> rfl

/-- The two characters of a code are digits of that code (R65). -/
theorem num_codeChars (op : Opcode) : num [digitChar (op.code / 10), digitChar op.code] = op.code := by
  cases op <;> decide

/-! ### Fields -/

theorem unsignedField_eq_some {p0 p1 p2 : Char} {n : Nat} :
    unsignedField p0 p1 p2 = some n ↔ isDigits [p0, p1, p2] = true ∧ num [p0, p1, p2] = n := by
  unfold unsignedField
  split_ifs with h <;> simp [h]

/-- R68: three digits and a number up to 999 are the same thing. -/
theorem bare_chars_of_digits {p0 p1 p2 : Char} (h : isDigits [p0, p1, p2] = true) :
    (SField.bare (num [p0, p1, p2])).chars = (p0, p1, p2) := by
  simp only [isDigits_cons, isDigits_nil, Bool.and_true, Bool.and_eq_true] at h
  obtain ⟨h0, h1, h2⟩ := h
  have := dig_lt h0; have := dig_lt h1; have := dig_lt h2
  rw [num_three]
  simp only [SField.chars, Prod.mk.injEq]
  exact ⟨digitChar_of_dig h0 (by omega), digitChar_of_dig h1 (by omega), digitChar_of_dig h2 (by omega)⟩

/-- R69: two digits and a number up to 99 are the same thing. -/
theorem twoDigits_chars {p1 p2 : Char} (h : isDigits [p1, p2] = true) :
    digitChar (num [p1, p2] / 10) = p1 ∧ digitChar (num [p1, p2]) = p2 := by
  simp only [isDigits_cons, isDigits_nil, Bool.and_true, Bool.and_eq_true] at h
  obtain ⟨h1, h2⟩ := h
  have := dig_lt h1; have := dig_lt h2
  rw [num_two]
  exact ⟨digitChar_of_dig h1 (by omega), digitChar_of_dig h2 (by omega)⟩

theorem num_three_le {p0 p1 p2 : Char} (h : isDigits [p0, p1, p2] = true) : num [p0, p1, p2] ≤ 999 := by
  simp only [isDigits_cons, isDigits_nil, Bool.and_true, Bool.and_eq_true] at h
  have := dig_lt h.1; have := dig_lt h.2.1; have := dig_lt h.2.2
  rw [num_three]; omega

theorem num_two_le {p1 p2 : Char} (h : isDigits [p1, p2] = true) : num [p1, p2] ≤ 99 := by
  simp only [isDigits_cons, isDigits_nil, Bool.and_true, Bool.and_eq_true] at h
  have := dig_lt h.1; have := dig_lt h.2
  rw [num_two]; omega

/-- The field read from a number's own characters is that number (R68). -/
theorem unsignedField_chars {n : Nat} (h : n ≤ 999) :
    unsignedField (SField.bare n).chars.1 (SField.bare n).chars.2.1 (SField.bare n).chars.2.2 = some n := by
  refine unsignedField_eq_some.mpr ⟨by simp [SField.chars], ?_⟩
  simp only [SField.chars, num_three, dig_digitChar]
  omega

/-- The field read from a signed field's own characters is that field (R69). -/
theorem signedField_chars {d : SField} (h : d.wf = true) :
    signedField d.chars.1 d.chars.2.1 d.chars.2.2 = some d := by
  have hp : isDigit '+' = false := by decide
  have hm : isDigit '-' = false := by decide
  cases d with
  | bare n =>
    have hn : n ≤ 999 := by simpa [SField.wf, fitsThreeDigits] using h
    simp only [signedField, SField.chars, isDigits_cons, isDigits_nil, isDigit_digitChar, Bool.and_true, if_true,
      num_three, dig_digitChar, Option.some.injEq, SField.bare.injEq]
    omega
  | plus n =>
    have hn : n ≤ 99 := by simpa [SField.wf, fitsTwoDigits] using h
    simp only [signedField, SField.chars, isDigits_cons, isDigits_nil, isDigit_digitChar, Bool.and_true, hp,
      Bool.false_eq_true, if_false, if_true, num_two, dig_digitChar, Option.some.injEq, SField.plus.injEq]
    omega
  | minus n =>
    have hn : n ≤ 99 := by simpa [SField.wf, fitsTwoDigits] using h
    have hne : ¬('-' : Char) = '+' := by decide
    simp only [signedField, SField.chars, isDigits_cons, isDigits_nil, isDigit_digitChar, Bool.and_true, hm, hne,
      Bool.false_eq_true, if_false, if_true, num_two, dig_digitChar, Option.some.injEq, SField.minus.injEq]
    omega

/-- What a field that was read is: well formed, and written by the characters it was read from (R69). -/
theorem signedField_eq_some {p0 p1 p2 : Char} {d : SField} (h : signedField p0 p1 p2 = some d) :
    d.wf = true ∧ d.chars = (p0, p1, p2) := by
  unfold signedField at h
  split_ifs at h with h3 h2 hp hm <;> simp only [Option.some.injEq] at h <;> subst h
  · exact ⟨by simpa [SField.wf, fitsThreeDigits] using num_three_le h3, bare_chars_of_digits h3⟩
  · exact ⟨by simpa [SField.wf, fitsTwoDigits] using num_two_le h2, by simp [SField.chars, twoDigits_chars h2, hp]⟩
  · exact ⟨by simpa [SField.wf, fitsTwoDigits] using num_two_le h2, by simp [SField.chars, twoDigits_chars h2, hm]⟩

/-- An operand read from its own characters is that operand (R68, R69). -/
theorem operandOf_chars {o : Operand} (h : o.wf = true) :
    operandOf o.mode o.chars.1 o.chars.2.1 o.chars.2.2 = some o := by
  cases o with
  | abs p =>
    have hp : p ≤ 999 := by simpa [Operand.wf, fitsThreeDigits] using h
    simp only [operandOf, Operand.mode, Operand.chars, unsignedField_chars hp, Option.map_some]
  | ind p =>
    have hp : p ≤ 999 := by simpa [Operand.wf, fitsThreeDigits] using h
    simp only [operandOf, Operand.mode, Operand.chars, unsignedField_chars hp, Option.map_some]
  | inm d => simp only [operandOf, Operand.mode, Operand.chars, signedField_chars (by exact h), Option.map_some]
  | rel d => simp only [operandOf, Operand.mode, Operand.chars, signedField_chars (by exact h), Option.map_some]

/-- What an operand that was read is: of the mode asked for, well formed, written by its characters (R68, R69). -/
theorem operandOf_eq_some {m : Mode} {p0 p1 p2 : Char} {o : Operand} (h : operandOf m p0 p1 p2 = some o) :
    o.mode = m ∧ o.wf = true ∧ o.chars = (p0, p1, p2) := by
  cases m <;> simp only [operandOf, Option.map_eq_some_iff] at h <;> obtain ⟨x, hx, rfl⟩ := h
  · obtain ⟨hd, rfl⟩ := unsignedField_eq_some.mp hx
    exact ⟨rfl, by simpa [Operand.wf, fitsThreeDigits] using num_three_le hd, bare_chars_of_digits hd⟩
  · obtain ⟨hd, rfl⟩ := unsignedField_eq_some.mp hx
    exact ⟨rfl, by simpa [Operand.wf, fitsThreeDigits] using num_three_le hd, bare_chars_of_digits hd⟩
  · exact ⟨rfl, signedField_eq_some hx⟩
  · exact ⟨rfl, signedField_eq_some hx⟩

/-! ### Instructions -/

/-- What an operand-taking opcode makes of an operand (R131). -/
theorem opcode_operand_of_inr {op : Opcode} {mk : Operand → Instr} (h : op.instrs = .inr mk) (o : Operand) :
    (mk o).opcode = op ∧ (mk o).operand = some o := by
  cases op <;> simp only [Opcode.instrs, Sum.inr.injEq, reduceCtorEq] at h <;> subst h <;> cases o <;> exact ⟨rfl, rfl⟩

/-- What an operand-less opcode makes (R67). -/
theorem opcode_operand_of_inl {op : Opcode} {i : Instr} (h : op.instrs = .inl i) :
    i.opcode = op ∧ i.operand = none := by
  cases op <;> simp only [Opcode.instrs, Sum.inl.injEq, reduceCtorEq] at h <;> subst h <;> exact ⟨rfl, rfl⟩

namespace Machine

/-- R54, R101: a formatted value has the DataWord shape. -/
@[simp] theorem isData_formatSigned (n : Int) : isData (formatSigned n) = true := by
  have : isSign (if n < 0 then '-' else '+') = true := by split_ifs <;> decide
  simp [formatSigned, isData, this]

/-- R71: a word of the DataWord shape is skipped when fetched. -/
theorem decode_of_isData {w : Word} (h : isData w = true) : decode w = .skipData := by
  cases w with
  | empty => cases h
  | chars c0 c1 c2 c3 c4 c5 =>
    have : isSign c0 = true := (Bool.and_eq_true _ _ ▸ h).1
    simp only [decode, this, if_true]

end Machine

end Sys2Proof
end

