-- ==== Sys2Proof/Laws/Memory.lean ====
section
/-! SUPPORT. The laws of memory: read after write, the canonical form, and that the form determines the memory. -/

namespace Sys2Proof.Machine

/-- All addresses of a list of cells are above `k`. -/
abbrev Above (k : Nat) (l : List (Nat × Word)) : Prop := ∀ c ∈ l, k < c.1

theorem readCells_of_above {k a : Nat} {l : List (Nat × Word)} (h : Above k l) (ha : a ≤ k) :
    readCells a l = .empty := by
  induction l with
  | nil => rfl
  | cons c rest ih =>
    have hc : k < c.1 := h c (by simp)
    have : c.1 ≠ a := by omega
    simpa [readCells, this] using ih fun x hx => h x (by simp [hx])

theorem readCells_mem {a : Nat} {w : Word} {l : List (Nat × Word)} (h : readCells a l = w) (hw : w ≠ .empty) :
    (a, w) ∈ l := by
  induction l with
  | nil => exact absurd h.symm hw
  | cons c rest ih =>
    obtain ⟨k, v⟩ := c
    by_cases hk : k = a
    · simp_all [readCells]
    · exact List.mem_cons_of_mem _ (ih (by simpa [readCells, hk] using h))

theorem readCells_writeCells_ne {a b : Nat} (w : Word) (l : List (Nat × Word)) (h : b ≠ a) :
    readCells b (writeCells a w l) = readCells b l := by
  induction l with
  | nil => by_cases hw : w = .empty <;> simp [writeCells, readCells, hw, h.symm]
  | cons c rest ih =>
    obtain ⟨k, v⟩ := c
    by_cases h1 : a < k
    · by_cases hw : w = .empty <;> simp [writeCells, readCells, hw, h1, h.symm]
    · by_cases h2 : a = k
      · subst h2
        by_cases hw : w = .empty <;> simp [writeCells, readCells, hw, h.symm]
      · simp [writeCells, readCells, h1, h2, ih]

theorem readCells_writeCells_same {a : Nat} (w : Word) {l : List (Nat × Word)}
    (h : l.Pairwise fun x y => x.1 < y.1) : readCells a (writeCells a w l) = w := by
  induction l with
  | nil => by_cases hw : w = .empty <;> simp [writeCells, readCells, hw]
  | cons c rest ih =>
    obtain ⟨k, v⟩ := c
    have hr : Above k rest := fun x hx => (List.pairwise_cons.mp h).1 x hx
    by_cases h1 : a < k
    · have hk : ¬k = a := by omega
      by_cases hw : w = .empty
      · simp [writeCells, readCells, hw, h1, hk, readCells_of_above hr h1.le]
      · simp [writeCells, readCells, hw, h1]
    · by_cases h2 : a = k
      · subst h2
        by_cases hw : w = .empty
        · simp [writeCells, hw, readCells_of_above hr le_rfl]
        · simp [writeCells, readCells, hw]
      · have hk : ¬k = a := fun e => h2 e.symm
        simpa [writeCells, readCells, h1, h2, hk] using ih (List.pairwise_cons.mp h).2

theorem mem_writeCells {a : Nat} {w : Word} {l : List (Nat × Word)} {c : Nat × Word} (h : c ∈ writeCells a w l) :
    c ∈ l ∨ (c = (a, w) ∧ w ≠ .empty) := by
  induction l with
  | nil => by_cases hw : w = .empty <;> simp_all [writeCells]
  | cons d rest ih =>
    obtain ⟨k, v⟩ := d
    by_cases h1 : a < k
    · by_cases hw : w = .empty <;> simp [writeCells, hw, h1] at h ⊢ <;> tauto
    · by_cases h2 : a = k
      · by_cases hw : w = .empty <;> simp [writeCells, hw, h2] at h ⊢ <;> tauto
      · simp [writeCells, h1, h2] at h ⊢
        tauto

theorem writeCells_pairwise (a : Nat) (w : Word) {l : List (Nat × Word)} (h : l.Pairwise fun x y => x.1 < y.1) :
    (writeCells a w l).Pairwise fun x y => x.1 < y.1 := by
  induction l with
  | nil => by_cases hw : w = .empty <;> simp [writeCells, hw]
  | cons c rest ih =>
    obtain ⟨k, v⟩ := c
    obtain ⟨hr, hp⟩ := List.pairwise_cons.mp h
    by_cases h1 : a < k
    · by_cases hw : w = .empty
      · simpa [writeCells, hw, h1] using h
      · simp only [writeCells, hw, h1, if_true, if_false]
        refine List.pairwise_cons.mpr ⟨fun x hx => ?_, h⟩
        rcases List.mem_cons.mp hx with rfl | hx
        · exact h1
        · exact h1.trans (hr x hx)
    · by_cases h2 : a = k
      · subst h2
        by_cases hw : w = .empty
        · simpa [writeCells, hw] using hp
        · simp only [writeCells, hw, lt_irrefl, if_true, if_false]
          exact List.pairwise_cons.mpr ⟨hr, hp⟩
      · simp only [writeCells, h1, h2, if_false]
        refine List.pairwise_cons.mpr ⟨fun x hx => ?_, ih hp⟩
        rcases mem_writeCells hx with hx | ⟨rfl, -⟩
        · exact hr x hx
        · show k < a
          omega

theorem Memory.read_write_ne (m : Memory) {a b : Nat} (w : Word) (h : b ≠ a) : (m.write a w).read b = m.read b :=
  readCells_writeCells_ne w m.cells h

theorem Memory.read_write_same {m : Memory} (hm : m.wf) (a : Nat) (w : Word) : (m.write a w).read a = w :=
  readCells_writeCells_same w hm.1

theorem readCells_writeCells_of_ne_empty {a : Nat} {w : Word} (hw : w ≠ .empty) (l : List (Nat × Word)) :
    readCells a (writeCells a w l) = w := by
  induction l with
  | nil => simp [writeCells, readCells, hw]
  | cons c rest ih =>
    obtain ⟨k, v⟩ := c
    by_cases h1 : a < k
    · simp [writeCells, readCells, hw, h1]
    · by_cases h2 : a = k
      · simp [writeCells, readCells, hw, h2]
      · have hk : ¬k = a := fun e => h2 e.symm
        simpa [writeCells, readCells, h1, h2, hk] using ih

/-- A word that is not `Empty` is read back whatever the form of the memory it is written to. -/
theorem Memory.read_write_of_ne_empty (m : Memory) (a : Nat) {w : Word} (hw : w ≠ .empty) :
    (m.write a w).read a = w :=
  readCells_writeCells_of_ne_empty hw m.cells

/-- A write within the address space keeps the canonical form. -/
theorem Memory.write_keeps_form {m : Memory} (hm : m.wf) {a : Nat} (ha : a < 1000) (w : Word) : (m.write a w).wf := by
  refine ⟨writeCells_pairwise a w hm.1, fun c hc => ?_⟩
  rcases mem_writeCells hc with hc | ⟨rfl, hw⟩
  · exact hm.2 c hc
  · exact ⟨ha, hw⟩

/-- No cell lies outside 0..999. -/
theorem Memory.read_beyond {m : Memory} (hm : m.wf) {a : Nat} (ha : 1000 ≤ a) : m.read a = .empty := by
  by_contra h
  have := (hm.2 _ (readCells_mem (rfl : m.read a = m.read a) h)).1
  simp only [Config.memWords] at this
  omega

@[simp] theorem isAddress_iff (a : Nat) : isAddress a = true ↔ a < 1000 := by simp [isAddress]

end Sys2Proof.Machine
end

