-- ==== Sys2Proof/Laws/State.lean ====
section
/-! SUPPORT. One lemma for each field of State after each operation that updates it. -/

namespace Sys2Proof.Machine

variable (s : State)

@[simp] theorem notify_regs (t : Option Nat) : (notify t s).regs = s.regs := rfl
@[simp] theorem notify_mem (t : Option Nat) : (notify t s).mem = s.mem := rfl
@[simp] theorem notify_rs (t : Option Nat) : (notify t s).rs = s.rs := rfl
@[simp] theorem notify_cl (t : Option Nat) : (notify t s).cl = s.cl := rfl
@[simp] theorem notify_request (t : Option Nat) : (notify t s).request = s.request := rfl
@[simp] theorem notify_reply (t : Option Nat) : (notify t s).reply = s.reply := rfl
@[simp] theorem notify_observed (t : Option Nat) : (notify t s).observed = s.observed ++ [.microStep s.regs t] := rfl

@[simp] theorem writePC_regs (v : Nat) : (writePC v s).regs = { s.regs with pc := v } := rfl
@[simp] theorem writePC_mem (v : Nat) : (writePC v s).mem = s.mem := rfl
@[simp] theorem writePC_rs (v : Nat) : (writePC v s).rs = s.rs := rfl
@[simp] theorem writePC_cl (v : Nat) : (writePC v s).cl = s.cl := rfl
@[simp] theorem writePC_request (v : Nat) : (writePC v s).request = s.request := rfl
@[simp] theorem writePC_reply (v : Nat) : (writePC v s).reply = s.reply := rfl
@[simp] theorem writePC_observed (v : Nat) : (writePC v s).observed = s.observed ++ [.microStep { s.regs with pc := v } none] := rfl

@[simp] theorem writePCPrev_regs (v : Nat) : (writePCPrev v s).regs = { s.regs with pcPrev := v } := rfl
@[simp] theorem writePCPrev_mem (v : Nat) : (writePCPrev v s).mem = s.mem := rfl
@[simp] theorem writePCPrev_rs (v : Nat) : (writePCPrev v s).rs = s.rs := rfl
@[simp] theorem writePCPrev_cl (v : Nat) : (writePCPrev v s).cl = s.cl := rfl
@[simp] theorem writePCPrev_request (v : Nat) : (writePCPrev v s).request = s.request := rfl
@[simp] theorem writePCPrev_reply (v : Nat) : (writePCPrev v s).reply = s.reply := rfl
@[simp] theorem writePCPrev_observed (v : Nat) : (writePCPrev v s).observed = s.observed ++ [.microStep { s.regs with pcPrev := v } none] := rfl

@[simp] theorem writeAC_regs (v : Int) : (writeAC v s).regs = { s.regs with ac := v } := rfl
@[simp] theorem writeAC_mem (v : Int) : (writeAC v s).mem = s.mem := rfl
@[simp] theorem writeAC_rs (v : Int) : (writeAC v s).rs = s.rs := rfl
@[simp] theorem writeAC_cl (v : Int) : (writeAC v s).cl = s.cl := rfl
@[simp] theorem writeAC_request (v : Int) : (writeAC v s).request = s.request := rfl
@[simp] theorem writeAC_reply (v : Int) : (writeAC v s).reply = s.reply := rfl
@[simp] theorem writeAC_observed (v : Int) : (writeAC v s).observed = s.observed ++ [.microStep { s.regs with ac := v } none] := rfl

@[simp] theorem writeMAR_regs (v : Nat) : (writeMAR v s).regs = { s.regs with mar := some v } := rfl
@[simp] theorem writeMAR_mem (v : Nat) : (writeMAR v s).mem = s.mem := rfl
@[simp] theorem writeMAR_rs (v : Nat) : (writeMAR v s).rs = s.rs := rfl
@[simp] theorem writeMAR_cl (v : Nat) : (writeMAR v s).cl = s.cl := rfl
@[simp] theorem writeMAR_request (v : Nat) : (writeMAR v s).request = s.request := rfl
@[simp] theorem writeMAR_reply (v : Nat) : (writeMAR v s).reply = s.reply := rfl
@[simp] theorem writeMAR_observed (v : Nat) : (writeMAR v s).observed = s.observed ++ [.microStep { s.regs with mar := some v } none] := rfl

@[simp] theorem readMDR_regs (a : Nat) : (readMDR a s).regs = { s.regs with mdr := s.mem.read a } := rfl
@[simp] theorem readMDR_mem (a : Nat) : (readMDR a s).mem = s.mem := rfl
@[simp] theorem readMDR_rs (a : Nat) : (readMDR a s).rs = s.rs := rfl
@[simp] theorem readMDR_cl (a : Nat) : (readMDR a s).cl = s.cl := rfl
@[simp] theorem readMDR_request (a : Nat) : (readMDR a s).request = s.request := rfl
@[simp] theorem readMDR_reply (a : Nat) : (readMDR a s).reply = s.reply := rfl
@[simp] theorem readMDR_observed (a : Nat) : (readMDR a s).observed = s.observed ++ [.microStep { s.regs with mdr := s.mem.read a } (some a)] := rfl

@[simp] theorem readIR_regs (a : Nat) : (readIR a s).regs = { s.regs with ir := s.mem.read a } := rfl
@[simp] theorem readIR_mem (a : Nat) : (readIR a s).mem = s.mem := rfl
@[simp] theorem readIR_rs (a : Nat) : (readIR a s).rs = s.rs := rfl
@[simp] theorem readIR_cl (a : Nat) : (readIR a s).cl = s.cl := rfl
@[simp] theorem readIR_request (a : Nat) : (readIR a s).request = s.request := rfl
@[simp] theorem readIR_reply (a : Nat) : (readIR a s).reply = s.reply := rfl
@[simp] theorem readIR_observed (a : Nat) : (readIR a s).observed = s.observed ++ [.microStep { s.regs with ir := s.mem.read a } (some a)] := rfl

@[simp] theorem writeMem_regs (a : Nat) (w : Word) : (writeMem a w s).regs = s.regs := rfl
@[simp] theorem writeMem_mem (a : Nat) (w : Word) : (writeMem a w s).mem = s.mem.write a w := rfl
@[simp] theorem writeMem_rs (a : Nat) (w : Word) : (writeMem a w s).rs = s.rs := rfl
@[simp] theorem writeMem_cl (a : Nat) (w : Word) : (writeMem a w s).cl = s.cl := rfl
@[simp] theorem writeMem_request (a : Nat) (w : Word) : (writeMem a w s).request = s.request := rfl
@[simp] theorem writeMem_reply (a : Nat) (w : Word) : (writeMem a w s).reply = s.reply := rfl
@[simp] theorem writeMem_observed (a : Nat) (w : Word) : (writeMem a w s).observed = s.observed ++ [.microStep s.regs (some a)] := rfl

@[simp] theorem report_regs (c : Condition) : (report c s).regs = s.regs := rfl
@[simp] theorem report_mem (c : Condition) : (report c s).mem = s.mem := rfl
@[simp] theorem report_rs (c : Condition) : (report c s).rs = s.rs := rfl
@[simp] theorem report_cl (c : Condition) : (report c s).cl = s.cl ++ [recordOf c s] := rfl
@[simp] theorem report_request (c : Condition) : (report c s).request = s.request := rfl
@[simp] theorem report_reply (c : Condition) : (report c s).reply = s.reply := rfl
@[simp] theorem report_observed (c : Condition) : (report c s).observed = s.observed ++ [.condition (recordOf c s)] := rfl

@[simp] theorem advance_regs : (advance s).regs = { s.regs with pcPrev := s.regs.pc, pc := s.regs.pc + 1 } := rfl
@[simp] theorem advance_mem : (advance s).mem = s.mem := rfl
@[simp] theorem advance_rs : (advance s).rs = s.rs := rfl
@[simp] theorem advance_cl : (advance s).cl = s.cl := rfl
@[simp] theorem advance_request : (advance s).request = s.request := rfl
@[simp] theorem advance_reply : (advance s).reply = s.reply := rfl
@[simp] theorem advance_observed : (advance s).observed = s.observed ++ [.microStep { s.regs with pcPrev := s.regs.pc } none] ++
      [.microStep { s.regs with pcPrev := s.regs.pc, pc := s.regs.pc + 1 } none] := rfl

@[simp] theorem preIncrement_regs : (preIncrement s).regs = { s.regs with pcPrev := s.regs.pc, pc := s.regs.pc + 1 } := rfl
@[simp] theorem preIncrement_mem : (preIncrement s).mem = s.mem := rfl
@[simp] theorem preIncrement_rs : (preIncrement s).rs = s.rs := rfl
@[simp] theorem preIncrement_cl : (preIncrement s).cl = s.cl := rfl
@[simp] theorem preIncrement_request : (preIncrement s).request = s.request := rfl
@[simp] theorem preIncrement_reply : (preIncrement s).reply = s.reply := rfl
@[simp] theorem preIncrement_observed : (preIncrement s).observed = s.observed ++ [.microStep { s.regs with pcPrev := s.regs.pc } none] ++
      [.microStep { s.regs with pcPrev := s.regs.pc, pc := s.regs.pc + 1 } none] := rfl

@[simp] theorem skipCell_regs : (skipCell s).regs = { s.regs with pcPrev := s.regs.pc, pc := s.regs.pc + 1 } := rfl
@[simp] theorem skipCell_mem : (skipCell s).mem = s.mem := rfl
@[simp] theorem skipCell_rs : (skipCell s).rs = s.rs := rfl
@[simp] theorem skipCell_cl : (skipCell s).cl = s.cl := rfl
@[simp] theorem skipCell_request : (skipCell s).request = s.request := rfl
@[simp] theorem skipCell_reply : (skipCell s).reply = s.reply := rfl
@[simp] theorem skipCell_observed : (skipCell s).observed = s.observed ++ [.microStep { s.regs with pcPrev := s.regs.pc } none] ++
      [.microStep { s.regs with pcPrev := s.regs.pc, pc := s.regs.pc + 1 } none] := rfl

@[simp] theorem transfer_regs (t : Nat) : (transfer t s).regs = { s.regs with pcPrev := s.regs.pc, pc := t } := rfl
@[simp] theorem transfer_mem (t : Nat) : (transfer t s).mem = s.mem := rfl
@[simp] theorem transfer_rs (t : Nat) : (transfer t s).rs = s.rs := rfl
@[simp] theorem transfer_cl (t : Nat) : (transfer t s).cl = s.cl := rfl
@[simp] theorem transfer_request (t : Nat) : (transfer t s).request = s.request := rfl
@[simp] theorem transfer_reply (t : Nat) : (transfer t s).reply = s.reply := rfl
@[simp] theorem transfer_observed (t : Nat) : (transfer t s).observed = s.observed ++ [.microStep { s.regs with pcPrev := s.regs.pc } none] ++
      [.microStep { s.regs with pcPrev := s.regs.pc, pc := t } none] := rfl

@[simp] theorem endRun_regs (e : RunState) : (endRun e s).regs = s.regs := rfl
@[simp] theorem endRun_mem (e : RunState) : (endRun e s).mem = s.mem := rfl
@[simp] theorem endRun_rs (e : RunState) : (endRun e s).rs = e := rfl
@[simp] theorem endRun_cl (e : RunState) : (endRun e s).cl = s.cl := rfl
@[simp] theorem endRun_request (e : RunState) : (endRun e s).request = s.request := rfl
@[simp] theorem endRun_reply (e : RunState) : (endRun e s).reply = some (.ran e) := rfl
@[simp] theorem endRun_observed (e : RunState) : (endRun e s).observed = s.observed := rfl

@[simp] theorem startRun_regs : (startRun s).regs = { s.regs with pc := 0, pcPrev := 0 } := rfl
@[simp] theorem startRun_mem : (startRun s).mem = s.mem := rfl
@[simp] theorem startRun_rs : (startRun s).rs = .running := rfl
@[simp] theorem startRun_cl : (startRun s).cl = [] := rfl
@[simp] theorem startRun_request : (startRun s).request = s.request := rfl
@[simp] theorem startRun_reply : (startRun s).reply = s.reply := rfl
@[simp] theorem startRun_observed : (startRun s).observed = s.observed := rfl

@[simp] theorem clearPorts_regs : (clearPorts s).regs = s.regs := rfl
@[simp] theorem clearPorts_mem : (clearPorts s).mem = s.mem := rfl
@[simp] theorem clearPorts_rs : (clearPorts s).rs = s.rs := rfl
@[simp] theorem clearPorts_cl : (clearPorts s).cl = s.cl := rfl
@[simp] theorem clearPorts_request : (clearPorts s).request = none := rfl
@[simp] theorem clearPorts_reply : (clearPorts s).reply = none := rfl
@[simp] theorem clearPorts_observed : (clearPorts s).observed = [] := rfl

@[simp] theorem answer_regs (r : HostReply) : (answer r s).regs = s.regs := rfl
@[simp] theorem answer_mem (r : HostReply) : (answer r s).mem = s.mem := rfl
@[simp] theorem answer_rs (r : HostReply) : (answer r s).rs = s.rs := rfl
@[simp] theorem answer_cl (r : HostReply) : (answer r s).cl = s.cl := rfl
@[simp] theorem answer_request (r : HostReply) : (answer r s).request = s.request := rfl
@[simp] theorem answer_reply (r : HostReply) : (answer r s).reply = some r := rfl
@[simp] theorem answer_observed (r : HostReply) : (answer r s).observed = s.observed := rfl

@[simp] theorem hostStore_regs (a : Nat) (w : Word) : (hostStore a w s).regs = s.regs := rfl
@[simp] theorem hostStore_mem (a : Nat) (w : Word) : (hostStore a w s).mem = s.mem.write a w := rfl
@[simp] theorem hostStore_rs (a : Nat) (w : Word) : (hostStore a w s).rs = s.rs := rfl
@[simp] theorem hostStore_cl (a : Nat) (w : Word) : (hostStore a w s).cl = s.cl := rfl
@[simp] theorem hostStore_request (a : Nat) (w : Word) : (hostStore a w s).request = s.request := rfl
@[simp] theorem hostStore_reply (a : Nat) (w : Word) : (hostStore a w s).reply = s.reply := rfl
@[simp] theorem hostStore_observed (a : Nat) (w : Word) : (hostStore a w s).observed = s.observed := rfl

@[simp] theorem takeSnapshot_regs : (takeSnapshot s).regs = s.regs := rfl
@[simp] theorem takeSnapshot_mem : (takeSnapshot s).mem = s.mem := rfl
@[simp] theorem takeSnapshot_rs : (takeSnapshot s).rs = s.rs := rfl
@[simp] theorem takeSnapshot_cl : (takeSnapshot s).cl = s.cl := rfl
@[simp] theorem takeSnapshot_request : (takeSnapshot s).request = s.request := rfl
@[simp] theorem takeSnapshot_reply : (takeSnapshot s).reply = some (.snapshot s.mem s.regs s.rs s.cl) := rfl
@[simp] theorem takeSnapshot_observed : (takeSnapshot s).observed = s.observed := rfl

@[simp] theorem placeWord_regs (w : Word) : (placeWord w s).regs = { s.regs with pc := fetchAddress s } := rfl
@[simp] theorem placeWord_mem (w : Word) : (placeWord w s).mem = s.mem.write (fetchAddress s) w := rfl
@[simp] theorem placeWord_rs (w : Word) : (placeWord w s).rs = .running := rfl
@[simp] theorem placeWord_cl (w : Word) : (placeWord w s).cl = s.cl := rfl
@[simp] theorem placeWord_request (w : Word) : (placeWord w s).request = none := rfl
@[simp] theorem placeWord_reply (w : Word) : (placeWord w s).reply = s.reply := rfl
@[simp] theorem placeWord_observed (w : Word) : (placeWord w s).observed = s.observed := rfl

@[simp] theorem recordOf_kind (c : Condition) : (recordOf c s).kind = c := rfl
@[simp] theorem recordOf_pc (c : Condition) : (recordOf c s).pc = s.regs.pc := rfl
@[simp] theorem recordOf_pcPrev (c : Condition) : (recordOf c s).pcPrev = s.regs.pcPrev := rfl
@[simp] theorem recordOf_ir (c : Condition) : (recordOf c s).ir = s.regs.ir := rfl

end Sys2Proof.Machine
end

