-- ==== Sys2Proof/Laws/Resolver.lean ====
section
/-! SUPPORT. What the address resolver can do (41_address_resolver.md), said once for each entry point. -/

namespace Sys2Proof.Machine

/-- R120, R128: a resolution writes MAR and MDR, shows the observer its micro-steps, and touches nothing else. -/
def ResolverFrame (s s1 : State) : Prop :=
  ∃ mar mdr obs, s1 = { s with regs := { s.regs with mar := mar, mdr := mdr }, observed := s.observed ++ obs }

theorem ResolverFrame.refl (s : State) : ResolverFrame s s := ⟨s.regs.mar, s.regs.mdr, [], by simp⟩

theorem ResolverFrame.trans {s s1 s2 : State} (h1 : ResolverFrame s s1) (h2 : ResolverFrame s1 s2) :
    ResolverFrame s s2 := by
  obtain ⟨m1, d1, o1, rfl⟩ := h1
  obtain ⟨m2, d2, o2, rfl⟩ := h2
  exact ⟨m2, d2, o1 ++ o2, by simp⟩

theorem writeMAR_frame (a : Nat) (s : State) : ResolverFrame s (writeMAR a s) :=
  ⟨some a, s.regs.mdr, _, rfl⟩

theorem readMDR_frame (a : Nat) (s : State) : ResolverFrame s (readMDR a s) :=
  ⟨s.regs.mar, s.mem.read a, _, rfl⟩

section
variable {s s1 : State} (h : ResolverFrame s s1)
include h

theorem ResolverFrame.mem : s1.mem = s.mem := by obtain ⟨_, _, _, rfl⟩ := h; rfl
theorem ResolverFrame.rs : s1.rs = s.rs := by obtain ⟨_, _, _, rfl⟩ := h; rfl
theorem ResolverFrame.cl : s1.cl = s.cl := by obtain ⟨_, _, _, rfl⟩ := h; rfl
theorem ResolverFrame.request : s1.request = s.request := by obtain ⟨_, _, _, rfl⟩ := h; rfl
theorem ResolverFrame.reply : s1.reply = s.reply := by obtain ⟨_, _, _, rfl⟩ := h; rfl
theorem ResolverFrame.pc : s1.regs.pc = s.regs.pc := by obtain ⟨_, _, _, rfl⟩ := h; rfl
theorem ResolverFrame.pcPrev : s1.regs.pcPrev = s.regs.pcPrev := by obtain ⟨_, _, _, rfl⟩ := h; rfl
theorem ResolverFrame.ac : s1.regs.ac = s.regs.ac := by obtain ⟨_, _, _, rfl⟩ := h; rfl
theorem ResolverFrame.ir : s1.regs.ir = s.regs.ir := by obtain ⟨_, _, _, rfl⟩ := h; rfl

end

/-- What a resolution from `s` can answer: a value of which `P` holds, a condition of which `Q` holds, or a fault. -/
def Resolution.Within {α : Type} (s : State) (P : α → State → Prop) (Q : Condition → State → Prop) :
    Resolution α → Prop
  | .ok v s1 => ResolverFrame s s1 ∧ P v s1
  | .fail c s1 => ResolverFrame s s1 ∧ Q c s1
  | .fault _ => True

/-- R44: an access of the core at an address of the machine. -/
theorem loadMDR_of_lt {a : Nat} (h : a < 1000) (s : State) : loadMDR a s = .ok (s.mem.read a) (readMDR a s) := by
  simp [loadMDR, h]

theorem loadMDR_of_ge {a : Nat} (h : 1000 ≤ a) (s : State) : loadMDR a s = .fault (.addressOutOfRange a) := by
  simp [loadMDR, h]

/-- R122: a usable pointer is a DataWord whose value is its address. -/
theorem pointerAddress_eq_some {w : Word} {a : Nat} :
    pointerAddress w = some a ↔ isData w = true ∧ dataValue w = (a : Int) ∧ a ≤ 999 := by
  unfold pointerAddress
  split_ifs with h
  · simp only [Bool.and_eq_true, decide_eq_true_eq] at h
    simp only [Option.some.injEq, h.1.1, true_and]
    omega
  · simp only [Bool.and_eq_true, decide_eq_true_eq, not_and, not_le] at h
    simp only [false_iff, not_and, not_le]
    intro hd hv
    have := h ⟨hd, by omega⟩
    omega

/-- R124: a relative address is PC plus the displacement, within 0..999. -/
theorem relativeAddress_eq_some {d : SField} {s : State} {a : Nat} :
    relativeAddress d s = some a ↔ (a : Int) = s.regs.pc + sval d ∧ a ≤ 999 := by
  unfold relativeAddress
  split_ifs with h
  · simp only [Bool.and_eq_true, decide_eq_true_eq] at h
    simp only [Option.some.injEq]
    omega
  · simp only [Bool.and_eq_true, decide_eq_true_eq, not_and, not_le] at h
    simp only [false_iff, not_and, not_le]
    intro hv
    have := h (by omega)
    omega

theorem relativeAddress_eq_none {d : SField} {s : State} :
    relativeAddress d s = none ↔ (s.regs.pc : Int) + sval d < 0 ∨ 999 < (s.regs.pc : Int) + sval d := by
  unfold relativeAddress
  split_ifs with h
  · simp only [Bool.and_eq_true, decide_eq_true_eq] at h
    simp only [false_iff, not_or, not_lt]
    exact h
  · simp only [Bool.and_eq_true, decide_eq_true_eq, not_and, not_le] at h
    simp only [true_iff]
    omega

/-- R125: what `ResolveAddr` can answer. The address is 0..999 unless it is an ABSOLUTE field that no word holds. -/
theorem resolveAddr_within (o : Operand) (s : State) :
    (resolveAddr o s).Within s (fun a s1 => s1.regs.mar = some a ∧ (o.wf = true → a ≤ 999))
      (fun c s1 => c ≠ .invalidWordFormat ∧ (o.wf = true → s1.regs.mar = s.regs.mar ∨ ∃ a ≤ 999, s1.regs.mar = some a)) := by
  cases o with
  | abs p =>
    refine ⟨writeMAR_frame p s, rfl, fun h => ?_⟩
    simpa [Operand.wf, fitsThreeDigits] using h
  | ind p =>
    by_cases hp : p < 1000
    · simp only [resolveAddr, resolveInd, loadMDR_of_lt hp]
      split
      · rename_i a ha
        exact ⟨((writeMAR_frame p s).trans (readMDR_frame _ _)).trans (writeMAR_frame _ _), rfl,
          fun _ => (pointerAddress_eq_some.mp ha).2.2⟩
      · exact ⟨(writeMAR_frame p s).trans (readMDR_frame _ _), by decide, fun _ => .inr ⟨p, by omega, rfl⟩⟩
    · simp [resolveAddr, resolveInd, loadMDR_of_ge (Nat.le_of_not_lt hp), Resolution.Within]
  | inm d => exact ⟨.refl s, by decide, fun _ => .inl rfl⟩
  | rel d =>
    simp only [resolveAddr, resolveRel]
    split
    · rename_i a ha
      exact ⟨writeMAR_frame a s, rfl, fun _ => (relativeAddress_eq_some.mp ha).2⟩
    · exact ⟨.refl s, by decide, fun _ => .inl rfl⟩

/-- R44: resolving an operand that a word can hold never leaves the address space. -/
theorem resolveAddr_ne_fault {o : Operand} (h : o.wf = true) (s : State) (f : Fault) : resolveAddr o s ≠ .fault f := by
  cases o with
  | abs p => simp [resolveAddr, resolveAbs]
  | ind p =>
    have hp : p < 1000 := by
      have : p ≤ 999 := by simpa [Operand.wf, fitsThreeDigits] using h
      omega
    simp only [resolveAddr, resolveInd, loadMDR_of_lt hp]
    split <;> simp
  | inm d => simp [resolveAddr]
  | rel d => simp only [resolveAddr, resolveRel]; split <;> simp

/-- The value of a field that a word can hold (R69). -/
theorem sval_range {d : SField} (h : d.wf = true) : -99 ≤ sval d ∧ sval d ≤ 999 := by
  cases d <;> simp only [SField.wf, fitsThreeDigits, fitsTwoDigits, decide_eq_true_eq] at h <;> simp only [sval] <;> omega

/-- R63: the value of a DataWord is in the range of a signed value. -/
theorem dataValue_natAbs_le {w : Word} (h : isData w = true) : (dataValue w).natAbs ≤ 99999 := by
  cases w with
  | empty => cases h
  | chars c0 c1 c2 c3 c4 c5 =>
    simp only [isData, isDigits_cons, isDigits_nil, Bool.and_true, Bool.and_eq_true] at h
    obtain ⟨-, h1, h2, h3, h4, h5⟩ := h
    have := dig_lt h1; have := dig_lt h2; have := dig_lt h3; have := dig_lt h4; have := dig_lt h5
    simp only [dataValue, num_five]
    split_ifs <;> omega

/-- R126: what `ResolveValue` can answer. -/
theorem resolveValue_within (o : Operand) (s : State) :
    (resolveValue o s).Within s
      (fun v s1 => o.wf = true → v.natAbs ≤ 99999 ∧ (s1.regs.mar = s.regs.mar ∨ ∃ a ≤ 999, s1.regs.mar = some a))
      (fun c s1 => c ≠ .invalidWordFormat ∧ (o.wf = true → s1.regs.mar = s.regs.mar ∨ ∃ a ≤ 999, s1.regs.mar = some a)) := by
  have key : ∀ o : Operand, (resolveMemoryValue o s).Within s
      (fun v s1 => o.wf = true → v.natAbs ≤ 99999 ∧ (s1.regs.mar = s.regs.mar ∨ ∃ a ≤ 999, s1.regs.mar = some a))
      (fun c s1 => c ≠ .invalidWordFormat ∧ (o.wf = true → s1.regs.mar = s.regs.mar ∨ ∃ a ≤ 999, s1.regs.mar = some a)) := by
    intro o
    have h := resolveAddr_within o s
    simp only [resolveMemoryValue]
    split <;> rename_i hr <;> rw [hr] at h
    · rename_i a s1
      obtain ⟨hf, hm, ha⟩ := h
      by_cases hlt : a < 1000
      · simp only [readOperand, loadMDR_of_lt hlt]
        split_ifs with hd
        · exact ⟨hf.trans (readMDR_frame _ _), fun hw => ⟨dataValue_natAbs_le hd, .inr ⟨a, ha hw, hm⟩⟩⟩
        · exact ⟨hf.trans (readMDR_frame _ _), by decide, fun hw => .inr ⟨a, ha hw, hm⟩⟩
      · simp [readOperand, loadMDR_of_ge (Nat.le_of_not_lt hlt), Resolution.Within]
    · exact h
    · trivial
  cases o with
  | inm d =>
    refine ⟨.refl s, fun h => ⟨?_, .inl rfl⟩⟩
    have := sval_range (d := d) h
    omega
  | abs p => exact key _
  | ind p => exact key _
  | rel d => exact key _

theorem resolveValue_ne_fault {o : Operand} (h : o.wf = true) (s : State) (f : Fault) : resolveValue o s ≠ .fault f := by
  have key : ∀ o : Operand, o.wf = true → resolveMemoryValue o s ≠ .fault f := by
    intro o h
    have hw := resolveAddr_within o s
    simp only [resolveMemoryValue]
    split <;> rename_i hr
    · rename_i a s1
      rw [hr] at hw
      have := hw.2.2 h
      simp only [readOperand, loadMDR_of_lt (show a < 1000 by omega)]
      split_ifs <;> simp
    · simp
    · exact absurd hr (resolveAddr_ne_fault h s _)
  cases o with
  | inm d => simp [resolveValue]
  | abs p => exact key _ h
  | ind p => exact key _ h
  | rel d => exact key _ h

/-- R127: what `ResolveTarget` can answer. -/
theorem resolveTarget_within (o : Operand) (s : State) :
    (resolveTarget o s).Within s
      (fun t s1 => o.wf = true → t ≤ 999 ∧ (s1.regs.mar = s.regs.mar ∨ ∃ a ≤ 999, s1.regs.mar = some a))
      (fun c s1 => c ≠ .invalidWordFormat ∧ (o.wf = true → s1.regs.mar = s.regs.mar ∨ ∃ a ≤ 999, s1.regs.mar = some a)) := by
  cases o with
  | abs p =>
    refine ⟨.refl s, fun h => ⟨?_, .inl rfl⟩⟩
    simpa [Operand.wf, fitsThreeDigits] using h
  | ind p =>
    have h := resolveAddr_within (.ind p) s
    simp only [resolveTarget]
    cases hr : resolveAddr (.ind p) s <;> rw [hr] at h
    · exact ⟨h.1, fun hw => ⟨h.2.2 hw, .inr ⟨_, h.2.2 hw, h.2.1⟩⟩⟩
    · exact h
    · trivial
  | inm d => exact ⟨.refl s, by decide, fun _ => .inl rfl⟩
  | rel d =>
    simp only [resolveTarget]
    split
    · rename_i a ha
      exact ⟨.refl s, fun _ => ⟨(relativeAddress_eq_some.mp ha).2, .inl rfl⟩⟩
    · exact ⟨.refl s, by decide, fun _ => .inl rfl⟩

theorem resolveTarget_ne_fault {o : Operand} (h : o.wf = true) (s : State) (f : Fault) :
    resolveTarget o s ≠ .fault f := by
  cases o with
  | abs p => simp [resolveTarget]
  | ind p => exact resolveAddr_ne_fault h s f
  | inm d => simp [resolveTarget]
  | rel d => simp only [resolveTarget]; split <;> simp

/-! ### The resolutions that succeed, mode by mode -/

/-- R122: a usable pointer. -/
theorem resolveAddr_ind {p a : Nat} {s : State} (hp : p ≤ 999) (ha : pointerAddress (s.mem.read p) = some a) :
    resolveAddr (.ind p) s = .ok a (writeMAR a (readMDR p (writeMAR p s))) := by
  simp [resolveAddr, resolveInd, loadMDR_of_lt (show p < 1000 by omega), ha]

/-- R216: an unusable pointer. -/
theorem resolveAddr_ind_bad {p : Nat} {s : State} (hp : p ≤ 999) (ha : pointerAddress (s.mem.read p) = none) :
    resolveAddr (.ind p) s = .fail .badIndirectAddress (readMDR p (writeMAR p s)) := by
  simp [resolveAddr, resolveInd, loadMDR_of_lt (show p < 1000 by omega), ha]

/-- R124: a relative address in bounds. -/
theorem resolveAddr_rel {d : SField} {a : Nat} {s : State} (ha : relativeAddress d s = some a) :
    resolveAddr (.rel d) s = .ok a (writeMAR a s) := by
  simp [resolveAddr, resolveRel, ha]

/-- R212: a relative address out of bounds. -/
theorem resolveAddr_rel_out {d : SField} {s : State} (ha : relativeAddress d s = none) :
    resolveAddr (.rel d) s = .fail .outOfBounds s := by
  simp [resolveAddr, resolveRel, ha]

/-- R126: the operand read after an address was resolved. -/
theorem readOperand_of_le {a : Nat} (h : a ≤ 999) (s : State) :
    readOperand a s =
      if isData (s.mem.read a) then .ok (dataValue (s.mem.read a)) (readMDR a s)
      else .fail .nonDataOperand (readMDR a s) := by
  simp [readOperand, loadMDR_of_lt (show a < 1000 by omega)]

/-- R126: ABSOLUTE. -/
theorem resolveValue_abs (p : Nat) (s : State) : resolveValue (.abs p) s = readOperand p (writeMAR p s) := rfl

/-- R126: INDIRECT. -/
theorem resolveValue_ind {p a : Nat} {s : State} (hp : p ≤ 999) (ha : pointerAddress (s.mem.read p) = some a) :
    resolveValue (.ind p) s = readOperand a (writeMAR a (readMDR p (writeMAR p s))) := by
  simp [resolveValue, resolveMemoryValue, resolveAddr_ind hp ha]

theorem resolveValue_ind_bad {p : Nat} {s : State} (hp : p ≤ 999) (ha : pointerAddress (s.mem.read p) = none) :
    resolveValue (.ind p) s = .fail .badIndirectAddress (readMDR p (writeMAR p s)) := by
  simp [resolveValue, resolveMemoryValue, resolveAddr_ind_bad hp ha]

/-- R126: RELATIVE. -/
theorem resolveValue_rel {d : SField} {a : Nat} {s : State} (ha : relativeAddress d s = some a) :
    resolveValue (.rel d) s = readOperand a (writeMAR a s) := by
  simp [resolveValue, resolveMemoryValue, resolveAddr_rel ha]

theorem resolveValue_rel_out {d : SField} {s : State} (ha : relativeAddress d s = none) :
    resolveValue (.rel d) s = .fail .outOfBounds s := by
  simp [resolveValue, resolveMemoryValue, resolveAddr_rel_out ha]

/-- R122: the pointers that are not usable. -/
theorem pointerAddress_eq_none {w : Word} :
    pointerAddress w = none ↔ isData w = false ∨ dataValue w < 0 ∨ 999 < dataValue w := by
  unfold pointerAddress
  split_ifs with h
  · simp only [Bool.and_eq_true, decide_eq_true_eq] at h
    refine ⟨fun e => absurd e (by simp), ?_⟩
    rintro (hd | hv | hv)
    · exact absurd h.1.1 (by simp [hd])
    · omega
    · omega
  · simp only [Bool.and_eq_true, decide_eq_true_eq, not_and, not_le] at h
    simp only [true_iff]
    cases hd : isData w
    · exact .inl rfl
    · by_cases hv : 0 ≤ dataValue w
      · exact .inr (.inr (h ⟨hd, hv⟩))
      · exact .inr (.inl (by omega))

end Sys2Proof.Machine
end

