-- ==== Sys2Proof/Laws/Exec.lean ====
section
/-! SUPPORT. What the shared meanings, `exec` and `step` can do, said once: if one answers next, then one of these
cases holds. -/

namespace Sys2Proof.Machine

/-- R162: LDA ends with AC written, or with a condition reported. -/
theorem loadAccumulator_next {o : Operand} {s t : State} (h : loadAccumulator o s = .next t) :
    (∃ v s1, resolveValue o (preIncrement s) = .ok v s1 ∧ t = writeAC v s1) ∨
    (∃ c s1, resolveValue o (preIncrement s) = .fail c s1 ∧ t = report c s1) := by
  unfold loadAccumulator at h
  split at h <;> rename_i hr <;> simp only [Host.Outcome.next.injEq, reduceCtorEq] at h
  · exact .inl ⟨_, _, hr, h.symm⟩
  · exact .inr ⟨_, _, hr, h.symm⟩

/-- R163: STA ends with one word stored, or with a condition reported. -/
theorem storeAccumulator_next {o : Operand} {s t : State} (h : storeAccumulator o s = .next t) :
    (∃ a s1, resolveAddr o (preIncrement s) = .ok a s1 ∧ a < 1000 ∧ inRange s1.regs.ac = true ∧
      t = writeMem a (formatSigned s1.regs.ac) s1) ∨
    (∃ c s1, resolveAddr o (preIncrement s) = .fail c s1 ∧ t = report c s1) := by
  unfold storeAccumulator at h
  split at h <;> rename_i hr
  · unfold storeWord at h
    split_ifs at h with ha hac
    simp only [Host.Outcome.next.injEq] at h
    exact .inl ⟨_, _, hr, by simpa using ha, hac, h.symm⟩
  · simp only [Host.Outcome.next.injEq] at h
    exact .inr ⟨_, _, hr, h.symm⟩
  · cases h

/-- R170, R171: ADD and SUB end with AC written, with Overflow reported, or with a resolution's condition reported. -/
theorem combineAccumulator_next {f : Int → Int → ArithResult} {o : Operand} {s t : State}
    (h : combineAccumulator f o s = .next t) :
    (∃ v s1, resolveValue o (preIncrement s) = .ok v s1 ∧ t = writeResult (f s1.regs.ac v) s1) ∨
    (∃ c s1, resolveValue o (preIncrement s) = .fail c s1 ∧ t = report c s1) := by
  unfold combineAccumulator at h
  split at h <;> rename_i hr <;> simp only [Host.Outcome.next.injEq, reduceCtorEq] at h
  · exact .inl ⟨_, _, hr, h.symm⟩
  · exact .inr ⟨_, _, hr, h.symm⟩

/-- R180: JMP ends with the transfer, or with a condition reported. -/
theorem jump_next {o : Operand} {s t : State} (h : jump o s = .next t) :
    (∃ a s1, resolveTarget o s = .ok a s1 ∧ t = transfer a s1) ∨
    (∃ c s1, resolveTarget o s = .fail c s1 ∧ t = report c s1) := by
  unfold jump at h
  split at h <;> rename_i hr <;> simp only [Host.Outcome.next.injEq, reduceCtorEq] at h
  · exact .inl ⟨_, _, hr, h.symm⟩
  · exact .inr ⟨_, _, hr, h.symm⟩

/-- R105: a result the unit gives is in range. -/
theorem narrow_eq_result {r v : Int} (h : narrow r = .result v) : v = r ∧ r.natAbs ≤ 99999 := by
  unfold narrow at h
  split_ifs at h with hr
  simp only [ArithResult.result.injEq] at h
  exact ⟨h.symm, by simpa [inRange] using hr⟩

theorem narrow_eq_overflow {r : Int} (h : narrow r = .overflow) : 99999 < r.natAbs := by
  unfold narrow at h
  split_ifs at h with hr
  simpa [inRange] using hr

/-- R147: the meaning of an instruction, by its opcode and operand. -/
theorem exec_cases (i : Instr) (s : State) :
    (i.opcode = .nop ∧ i.operand = none ∧ exec i s = .next (preIncrement s)) ∨
    (i.opcode = .cla ∧ i.operand = none ∧ exec i s = .next (writeAC 0 (preIncrement s))) ∨
    (i.opcode = .neg ∧ i.operand = none ∧ exec i s = .next (writeAC (-s.regs.ac) (preIncrement s))) ∨
    (i = .hlt ∧ i.opcode = .hlt ∧ i.operand = none ∧ exec i s = .next (endRun .halted (preIncrement s))) ∨
    ∃ o, i.operand = some o ∧ i.wf = o.wf ∧
      ((i.opcode = .lda ∧ exec i s = loadAccumulator o s) ∨
       (i.opcode = .sta ∧ exec i s = storeAccumulator o s) ∨
       (i.opcode = .add ∧ exec i s = combineAccumulator add o s) ∨
       (i.opcode = .sub ∧ exec i s = combineAccumulator subtract o s) ∨
       (i.opcode = .jmp ∧ exec i s = jump o s)) := by
  cases i
  case nop => exact .inl ⟨rfl, rfl, rfl⟩
  case cla => exact .inr (.inl ⟨rfl, rfl, rfl⟩)
  case neg => exact .inr (.inr (.inl ⟨rfl, rfl, rfl⟩))
  case hlt => exact .inr (.inr (.inr (.inl ⟨rfl, rfl, rfl, rfl⟩)))
  case ldaAbs | ldaInd | ldaInm | ldaRel => exact .inr (.inr (.inr (.inr ⟨_, rfl, rfl, .inl ⟨rfl, rfl⟩⟩)))
  case staAbs | staInd | staInm | staRel => exact .inr (.inr (.inr (.inr ⟨_, rfl, rfl, .inr (.inl ⟨rfl, rfl⟩)⟩)))
  case addAbs | addInd | addInm | addRel =>
    exact .inr (.inr (.inr (.inr ⟨_, rfl, rfl, .inr (.inr (.inl ⟨rfl, rfl⟩))⟩)))
  case subAbs | subInd | subInm | subRel =>
    exact .inr (.inr (.inr (.inr ⟨_, rfl, rfl, .inr (.inr (.inr (.inl ⟨rfl, rfl⟩)))⟩)))
  case jmpAbs | jmpInd | jmpInm | jmpRel =>
    exact .inr (.inr (.inr (.inr ⟨_, rfl, rfl, .inr (.inr (.inr (.inr ⟨rfl, rfl⟩)))⟩)))

/-- R170, R171: the end of ADD and SUB is a write of a result in range or the report of Overflow. -/
theorem writeResult_cases (r : ArithResult) (s : State) :
    (∃ v, r = .result v ∧ writeResult r s = writeAC v s) ∨
    (r = .overflow ∧ writeResult r s = report .overflow s) := by
  cases r with
  | result v => exact .inl ⟨v, rfl, rfl⟩
  | overflow => exact .inr ⟨rfl, rfl⟩

theorem Resolution.Within.of_ok {α : Type} {s s1 : State} {P : α → State → Prop} {Q : Condition → State → Prop}
    {r : Resolution α} {v : α} (h : r.Within s P Q) (e : r = .ok v s1) : ResolverFrame s s1 ∧ P v s1 := by
  subst e; exact h

theorem Resolution.Within.of_fail {α : Type} {s s1 : State} {P : α → State → Prop} {Q : Condition → State → Prop}
    {r : Resolution α} {c : Condition} (h : r.Within s P Q) (e : r = .fail c s1) : ResolverFrame s s1 ∧ Q c s1 := by
  subst e; exact h

/-- R151: the shape of every next state that an instruction answers. After the pre-increment (JMP: without it) and a
resolution that wrote only MAR and MDR, it ends at once, with a write of AC, with a store, with a transfer or with the
report of a condition, which is never InvalidWordFormat (R213); HLT ends the run. -/
theorem exec_next_cases {i : Instr} {s t : State} (h : exec i s = .next t) :
    (i.opcode ≠ .jmp ∧ i.opcode ≠ .sta ∧ i.opcode ≠ .hlt ∧ ∃ s1, ResolverFrame (preIncrement s) s1 ∧
      (t = s1 ∨ (∃ v, t = writeAC v s1) ∨ ∃ c, c ≠ .invalidWordFormat ∧ t = report c s1)) ∨
    (i.opcode = .sta ∧ ∃ s1, ResolverFrame (preIncrement s) s1 ∧
      ((∃ a, a < 1000 ∧ s1.regs.mar = some a ∧ t = writeMem a (formatSigned s1.regs.ac) s1) ∨
        ∃ c, c ≠ .invalidWordFormat ∧ t = report c s1)) ∨
    (i = .hlt ∧ t = endRun .halted (preIncrement s)) ∨
    (i.opcode = .jmp ∧ ∃ s1, ResolverFrame s s1 ∧
      ((∃ a, (i.wf = true → a ≤ 999) ∧ t = transfer a s1) ∨ ∃ c, c ≠ .invalidWordFormat ∧ t = report c s1)) := by
  rcases exec_cases i s with ⟨e, -, h'⟩ | ⟨e, -, h'⟩ | ⟨e, -, h'⟩ | ⟨e, -, -, h'⟩ |
    ⟨o, -, hw, ⟨e, h'⟩ | ⟨e, h'⟩ | ⟨e, h'⟩ | ⟨e, h'⟩ | ⟨e, h'⟩⟩ <;> rw [h'] at h
  · cases h; exact .inl ⟨by simp [e], by simp [e], by simp [e], _, .refl _, .inl rfl⟩
  · cases h; exact .inl ⟨by simp [e], by simp [e], by simp [e], _, .refl _, .inr (.inl ⟨_, rfl⟩)⟩
  · cases h; exact .inl ⟨by simp [e], by simp [e], by simp [e], _, .refl _, .inr (.inl ⟨_, rfl⟩)⟩
  · cases h; exact .inr (.inr (.inl ⟨e, rfl⟩))
  · refine .inl ⟨by simp [e], by simp [e], by simp [e], ?_⟩
    rcases loadAccumulator_next h with ⟨v, s1, hr, rfl⟩ | ⟨c, s1, hr, rfl⟩
    · exact ⟨s1, ((resolveValue_within o _).of_ok hr).1, .inr (.inl ⟨_, rfl⟩)⟩
    · have k := (resolveValue_within o _).of_fail hr
      exact ⟨s1, k.1, .inr (.inr ⟨_, k.2.1, rfl⟩)⟩
  · refine .inr (.inl ⟨e, ?_⟩)
    rcases storeAccumulator_next h with ⟨a, s1, hr, ha, -, rfl⟩ | ⟨c, s1, hr, rfl⟩
    · have k := (resolveAddr_within o _).of_ok hr
      exact ⟨s1, k.1, .inl ⟨a, ha, k.2.1, rfl⟩⟩
    · have k := (resolveAddr_within o _).of_fail hr
      exact ⟨s1, k.1, .inr ⟨_, k.2.1, rfl⟩⟩
  iterate 2
    refine .inl ⟨by simp [e], by simp [e], by simp [e], ?_⟩
    rcases combineAccumulator_next h with ⟨v, s1, hr, rfl⟩ | ⟨c, s1, hr, rfl⟩
    · have k := (resolveValue_within o _).of_ok hr
      rcases writeResult_cases _ s1 with ⟨r, -, e1⟩ | ⟨-, e1⟩
      · exact ⟨s1, k.1, .inr (.inl ⟨r, e1⟩)⟩
      · exact ⟨s1, k.1, .inr (.inr ⟨_, by simp, e1⟩)⟩
    · have k := (resolveValue_within o _).of_fail hr
      exact ⟨s1, k.1, .inr (.inr ⟨_, k.2.1, rfl⟩)⟩
  · refine .inr (.inr (.inr ⟨e, ?_⟩))
    rcases jump_next h with ⟨a, s1, hr, rfl⟩ | ⟨c, s1, hr, rfl⟩
    · have k := (resolveTarget_within o _).of_ok hr
      exact ⟨s1, k.1, .inl ⟨a, fun hwf => (k.2 (hw ▸ hwf)).1, rfl⟩⟩
    · have k := (resolveTarget_within o _).of_fail hr
      exact ⟨s1, k.1, .inr ⟨_, k.2.1, rfl⟩⟩

/-- R140, R141, R151: what a step can do: serve a request, stay idle, end the run, skip a cell, or execute. -/
theorem step_cases (s : State) :
    (∃ r, s.request = some r ∧ step s = .next (serve r (clearPorts s))) ∨
    (s.request = none ∧ s.rs ≠ .running ∧ step s = .next (clearPorts s)) ∨
    (s.request = none ∧ s.rs = .running ∧ 1000 ≤ s.regs.pc ∧ step s = .next (endRun .ended (clearPorts s))) ∨
    (s.request = none ∧ s.rs = .running ∧ s.regs.pc < 1000 ∧
      (decode (s.mem.read s.regs.pc) = .skipEmpty ∨ decode (s.mem.read s.regs.pc) = .skipData) ∧
      step s = .next (skipCell (readIR s.regs.pc (clearPorts s)))) ∨
    (s.request = none ∧ s.rs = .running ∧ s.regs.pc < 1000 ∧ decode (s.mem.read s.regs.pc) = .skipInvalid ∧
      step s = .next (skipCell (report .invalidWordFormat (readIR s.regs.pc (clearPorts s))))) ∨
    (s.request = none ∧ s.rs = .running ∧ s.regs.pc < 1000 ∧
      ∃ i, decode (s.mem.read s.regs.pc) = .instr i ∧ step s = exec i (readIR s.regs.pc (clearPorts s))) := by
  cases hq : s.request with
  | some r => exact .inl ⟨r, rfl, by simp [step, machineStep, hq]⟩
  | none =>
    right
    by_cases hr : s.rs = .running
    · right
      by_cases hp : s.regs.pc < 1000
      · right
        have hs : step s =
            executeDecoded (decode (s.mem.read s.regs.pc)) (readIR s.regs.pc (clearPorts s)) := by
          simp [step, machineStep, hq, advanceCore, hr, runTurn, hp, cycle]
        cases hd : decode (s.mem.read s.regs.pc) <;> rw [hd] at hs
        · exact .inl ⟨rfl, hr, hp, .inl rfl, hs⟩
        · exact .inl ⟨rfl, hr, hp, .inr rfl, hs⟩
        · exact .inr (.inl ⟨rfl, hr, hp, rfl, hs⟩)
        · exact .inr (.inr ⟨rfl, hr, hp, _, rfl, hs⟩)
      · exact .inl ⟨rfl, hr, by omega, by simp [step, machineStep, hq, advanceCore, hr, runTurn, hp]⟩
    · exact .inl ⟨rfl, hr, by simp [step, machineStep, hq, advanceCore, hr]⟩

/-! ### The host port (46_host_interface.md) -/

/-- R191, R192: a batch changes only memory and the reply. -/
theorem loadLines_frame (start : Nat) (lines : List Text) (i : Nat) (s : State) :
    ∃ mem reply, loadLines start i lines s = { s with mem := mem, reply := reply } := by
  induction lines generalizing i s with
  | nil => exact ⟨s.mem, _, rfl⟩
  | cons l ls ih =>
    unfold loadLines
    split
    · split_ifs
      · obtain ⟨m, r, h⟩ := ih (i + 1) (hostStore (start + i) _ s)
        exact ⟨m, r, h⟩
      · exact ⟨s.mem, _, rfl⟩
    · exact ⟨s.mem, _, rfl⟩

/-- R193: an edit changes only memory and the reply. -/
theorem editCell_frame (a : Int) (t : Text) (s : State) :
    ∃ mem reply, editCell a t s = { s with mem := mem, reply := reply } := by
  unfold editCell
  split_ifs
  · split
    · exact ⟨_, _, rfl⟩
    · exact ⟨s.mem, _, rfl⟩
  · exact ⟨s.mem, _, rfl⟩

/-- R190: what serving a request can do: start a run, or change memory and the reply and nothing else. -/
theorem serve_cases (r : HostRequest) (s : State) :
    (r = .run ∧ s.rs ≠ .running ∧ serve r s = startRun s) ∨
    (∃ mem reply, serve r s = { s with mem := mem, reply := reply } ∧ (s.rs = .running → mem = s.mem)) := by
  cases r with
  | disassemble w => exact .inr ⟨s.mem, _, rfl, fun _ => rfl⟩
  | run =>
    by_cases h : s.rs = .running
    · exact .inr ⟨s.mem, some (.refused .busy), by simp [serve, whileIdle, h, answer], fun _ => rfl⟩
    · exact .inl ⟨rfl, h, by simp [serve, whileIdle, h]⟩
  | snapshot =>
    by_cases h : s.rs = .running
    · exact .inr ⟨s.mem, some (.refused .busy), by simp [serve, whileIdle, h, answer], fun _ => rfl⟩
    · exact .inr ⟨s.mem, _, by simp only [serve, whileIdle, if_neg h]; rfl, fun _ => rfl⟩
  | load start lines =>
    by_cases h : s.rs = .running
    · exact .inr ⟨s.mem, some (.refused .busy), by simp [serve, whileIdle, h, answer], fun _ => rfl⟩
    · obtain ⟨m, rp, e⟩ := loadLines_frame start lines 0 s
      exact .inr ⟨m, rp, by simp only [serve, whileIdle, if_neg h, e], fun h' => absurd h' h⟩
  | edit a t =>
    by_cases h : s.rs = .running
    · exact .inr ⟨s.mem, some (.refused .busy), by simp [serve, whileIdle, h, answer], fun _ => rfl⟩
    · obtain ⟨m, rp, e⟩ := editCell_frame a t s
      exact .inr ⟨m, rp, by simp only [serve, whileIdle, if_neg h, e], fun h' => absurd h' h⟩

/-- R30: a property of memory that every write of the host keeps holds after a request. -/
theorem serve_mem {P : Memory → Prop} {r : HostRequest} {s : State} (h0 : P s.mem)
    (hA : ∀ m a w t, P m → a < 1000 → assemble t = .ok w → P (m.write a w))
    (hV : ∀ m a w t, P m → a < 1000 → validate t = .ok w → P (m.write a w)) : P (serve r s).mem := by
  have hload : ∀ (start : Nat) (lines : List Text) (i : Nat) (s : State), P s.mem → P (loadLines start i lines s).mem := by
    intro start lines
    induction lines with
    | nil => exact fun _ _ h => h
    | cons l ls ih =>
      intro i s h
      unfold loadLines
      split
      · rename_i w hw
        split_ifs with ha
        · exact ih _ _ (hA _ _ _ _ h (by simpa using ha) hw)
        · exact h
      · exact h
  cases r with
  | disassemble w => exact h0
  | run => by_cases h : s.rs = .running <;> simpa [serve, whileIdle, h] using h0
  | snapshot => by_cases h : s.rs = .running <;> simpa [serve, whileIdle, h] using h0
  | load start lines =>
    by_cases h : s.rs = .running
    · simpa [serve, whileIdle, h] using h0
    · simpa [serve, whileIdle, h] using hload start lines 0 s h0
  | edit a t =>
    by_cases h : s.rs = .running
    · simpa [serve, whileIdle, h] using h0
    · simp only [serve, whileIdle, if_neg h]
      unfold editCell
      split_ifs with ha
      · simp only [Bool.and_eq_true, isAddress_iff] at ha
        split
        · rename_i w hw
          exact hV _ _ _ _ h0 ha.2 hw
        · exact h0
      · exact h0

end Sys2Proof.Machine
end

