-- ==== Sys2Proof/Laws/MicroSteps.lean ====
section
/-! SUPPORT. Runs of micro-steps that write registers only, and what an instruction that ends after one does. -/

namespace Sys2Proof.Machine

/-- `t` is `s` after `n` micro-steps that write registers only. -/
def Wrote (s t : State) (n : Nat) : Prop :=
  ∃ obs, t = { s with regs := t.regs, observed := s.observed ++ obs } ∧ MicroSteps obs n

theorem Wrote.refl (s : State) : Wrote s s 0 := ⟨[], by simp, rfl, rfl⟩

theorem Wrote.trans {s t u : State} {m n : Nat} (h1 : Wrote s t m) (h2 : Wrote t u n) : Wrote s u (m + n) := by
  obtain ⟨o1, e1, l1, a1⟩ := h1
  obtain ⟨o2, e2, l2, a2⟩ := h2
  refine ⟨o1 ++ o2, ?_, by simp [l1, l2], by simp [a1, a2]⟩
  rw [e2, e1]
  simp

theorem wrote_writePC (v : Nat) (s : State) : Wrote s (writePC v s) 1 := ⟨[_], rfl, rfl, rfl⟩
theorem wrote_writePCPrev (v : Nat) (s : State) : Wrote s (writePCPrev v s) 1 := ⟨[_], rfl, rfl, rfl⟩
theorem wrote_writeAC (v : Int) (s : State) : Wrote s (writeAC v s) 1 := ⟨[_], rfl, rfl, rfl⟩
theorem wrote_writeMAR (v : Nat) (s : State) : Wrote s (writeMAR v s) 1 := ⟨[_], rfl, rfl, rfl⟩
theorem wrote_readMDR (a : Nat) (s : State) : Wrote s (readMDR a s) 1 := ⟨[_], rfl, rfl, rfl⟩
theorem wrote_readIR (a : Nat) (s : State) : Wrote s (readIR a s) 1 := ⟨[_], rfl, rfl, rfl⟩

theorem wrote_advance (s : State) : Wrote s (advance s) 2 :=
  (wrote_writePCPrev _ s).trans (wrote_writePC _ _)

theorem wrote_preIncrement (s : State) : Wrote s (preIncrement s) 2 := wrote_advance s

theorem wrote_transfer (t : Nat) (s : State) : Wrote s (transfer t s) 2 :=
  (wrote_writePCPrev _ s).trans (wrote_writePC _ _)

/-- An outcome that is the end of such a run completes. -/
theorem Wrote.completes {out : Host.Outcome State Fault Refusal} {s t : State} {r : RegisterFile} {n : Nat}
    (h : Wrote s t n) (e : out = .next t) (hr : t.regs = r) : CompletesWith out s r n := by
  obtain ⟨obs, ht, hm⟩ := h
  subst hr
  exact ⟨obs, by rw [e]; exact congrArg _ ht, hm⟩

/-- An outcome that reports a condition after such a run. -/
theorem Wrote.reports {out : Host.Outcome State Fault Refusal} {s t : State} {r : RegisterFile} {c : Condition} {n : Nat}
    (h : Wrote s t n) (e : out = .next (report c t)) (hr : t.regs = r) : ReportsCondition out s r c n := by
  obtain ⟨obs, ht, hm⟩ := h
  subst hr
  refine ⟨obs, ?_, hm⟩
  have h1 : t.mem = s.mem := by rw [ht]
  have h2 : t.rs = s.rs := by rw [ht]
  have h3 : t.cl = s.cl := by rw [ht]
  have h4 : t.request = s.request := by rw [ht]
  have h5 : t.reply = s.reply := by rw [ht]
  have h6 : t.observed = s.observed ++ obs := by rw [ht]
  simp only [e, report, recordOf, h1, h2, h3, h4, h5, h6]

/-- An outcome that stores a word, not `Empty`, after such a run. -/
theorem Wrote.stores {out : Host.Outcome State Fault Refusal} {s t : State} {r : RegisterFile} {a : Nat} {w : Word}
    {n : Nat} (h : Wrote s t n) (e : out = .next (writeMem a w t)) (hr : t.regs = r) (hw : w ≠ .empty) :
    StoresWord out s r a w (n + 1) := by
  obtain ⟨obs, ht, hl, ha⟩ := h
  subst hr
  have h1 : t.mem = s.mem := by rw [ht]
  have h2 : t.rs = s.rs := by rw [ht]
  have h3 : t.cl = s.cl := by rw [ht]
  have h4 : t.request = s.request := by rw [ht]
  have h5 : t.reply = s.reply := by rw [ht]
  have h6 : t.observed = s.observed ++ obs := by rw [ht]
  refine ⟨obs ++ [.microStep t.regs (some a)], s.mem.write a w, ?_, ?_, Memory.read_write_of_ne_empty _ _ hw,
    fun b hb => Memory.read_write_ne _ _ hb⟩
  · simp [e, writeMem, notify, h1, h2, h3, h4, h5, h6]
  · exact ⟨by simp [hl], by simp [ha, Notification.isMicroStep]⟩

end Sys2Proof.Machine
end

