-- ==== Sys2Proof/Laws/PerInstr.lean ====
section
/-! SUPPORT. Statements about every instruction, one lemma per constructor. -/

/-- An instruction is rebuilt by its opcode from its operand, and an operand-less opcode rebuilds it alone (R67, R131). -/
def Sys2Proof.Laws.Rebuild.Statement (i : Sys2Proof.Instr) : Prop :=
  match i.opcode.instrs with
  | .inl j => i.operand = none ∧ j = i
  | .inr mk => ∃ o, i.operand = some o ∧ mk o = i

namespace Sys2Proof.Laws.Rebuild

theorem nop : Statement .nop := ⟨rfl, rfl⟩
theorem cla : Statement .cla := ⟨rfl, rfl⟩
theorem ldaAbs (p : Nat) : Statement (.ldaAbs p) := ⟨_, rfl, rfl⟩
theorem ldaInd (p : Nat) : Statement (.ldaInd p) := ⟨_, rfl, rfl⟩
theorem ldaInm (p : SField) : Statement (.ldaInm p) := ⟨_, rfl, rfl⟩
theorem ldaRel (p : SField) : Statement (.ldaRel p) := ⟨_, rfl, rfl⟩
theorem staAbs (p : Nat) : Statement (.staAbs p) := ⟨_, rfl, rfl⟩
theorem staInd (p : Nat) : Statement (.staInd p) := ⟨_, rfl, rfl⟩
theorem staInm (p : SField) : Statement (.staInm p) := ⟨_, rfl, rfl⟩
theorem staRel (p : SField) : Statement (.staRel p) := ⟨_, rfl, rfl⟩
theorem addAbs (p : Nat) : Statement (.addAbs p) := ⟨_, rfl, rfl⟩
theorem addInd (p : Nat) : Statement (.addInd p) := ⟨_, rfl, rfl⟩
theorem addInm (p : SField) : Statement (.addInm p) := ⟨_, rfl, rfl⟩
theorem addRel (p : SField) : Statement (.addRel p) := ⟨_, rfl, rfl⟩
theorem subAbs (p : Nat) : Statement (.subAbs p) := ⟨_, rfl, rfl⟩
theorem subInd (p : Nat) : Statement (.subInd p) := ⟨_, rfl, rfl⟩
theorem subInm (p : SField) : Statement (.subInm p) := ⟨_, rfl, rfl⟩
theorem subRel (p : SField) : Statement (.subRel p) := ⟨_, rfl, rfl⟩
theorem neg : Statement .neg := ⟨rfl, rfl⟩
theorem jmpAbs (p : Nat) : Statement (.jmpAbs p) := ⟨_, rfl, rfl⟩
theorem jmpInd (p : Nat) : Statement (.jmpInd p) := ⟨_, rfl, rfl⟩
theorem jmpInm (p : SField) : Statement (.jmpInm p) := ⟨_, rfl, rfl⟩
theorem jmpRel (p : SField) : Statement (.jmpRel p) := ⟨_, rfl, rfl⟩
theorem hlt : Statement .hlt := ⟨rfl, rfl⟩

end Sys2Proof.Laws.Rebuild
end

