-- ==== Sys2Proof/Tests/Slice0.lean ====
section
/-! SUPPORT. Tests on fixed values, with the expected results of spec/95_test_vectors.md (named W, V-..) or of the rule
named, and for every obligation with hypotheses a witness: concrete values that meet them together. -/

namespace Sys2Proof.Tests

open Sys2Proof.Machine

/-! ### Helpers -/

/-- The word of a text: six characters, else `Empty`. -/
def wordOf (t : String) : Word :=
  match t.toList with
  | [c0, c1, c2, c3, c4, c5] => .chars c0 c1 c2 c3 c4 c5
  | _ => .empty

/-- A running machine as at power-on but for PC, AC and the cells given, in address order. -/
def running (pc : Nat) (ac : Int) (cells : List (Nat × String)) : State :=
  { State.reset with
    regs := { State.reset.regs with pc := pc, ac := ac }
    mem := { cells := cells.map fun c => (c.1, wordOf c.2) }
    rs := .running }

/-- A machine in which no run is in progress, with the cells given and a request to serve. -/
def asking (r : HostRequest) (cells : List (Nat × String)) : State :=
  { State.reset with mem := { cells := cells.map fun c => (c.1, wordOf c.2) }, request := some r }

/-- The state after one step, none where the step stops. -/
def after (s : State) : Option State :=
  match step s with
  | .next t => some t
  | .fault _ => none
  | .refused _ => none

/-- What a vector of spec/95_test_vectors.md states after a cycle. -/
structure Seen where
  pc : Nat
  pcPrev : Nat
  ac : Int
  mar : Option Nat
  mdr : Word
  /-- the cells looked at -/
  cells : List Word
  conditions : List Condition
  microSteps : Nat
  deriving DecidableEq, Repr

/-- What one step shows, with the cells at the addresses given. -/
def seen (s : State) (look : List Nat) : Option Seen :=
  (after s).map fun t =>
    ⟨t.regs.pc, t.regs.pcPrev, t.regs.ac, t.regs.mar, t.regs.mdr, look.map t.mem.read, t.cl.map CondRecord.kind,
      (t.observed.filter Notification.isMicroStep).length⟩

/-! ### Well-formedness refuses (30_encoding.md R68, R69) -/

theorem test_wf_abs_four_digits : (Instr.ldaAbs 1000).wf = false := by decide
theorem test_wf_ind_four_digits : (Instr.jmpInd 1000).wf = false := by decide
theorem test_wf_inm_bare_four_digits : (Instr.addInm (.bare 1000)).wf = false := by decide
theorem test_wf_rel_plus_three_digits : (Instr.subRel (.plus 100)).wf = false := by decide
theorem test_wf_inm_minus_three_digits : (Instr.ldaInm (.minus 100)).wf = false := by decide
theorem test_wf_boundaries : (Instr.staAbs 999).wf = true ∧ (Instr.ldaInm (.bare 999)).wf = true ∧
    (Instr.jmpRel (.minus 99)).wf = true ∧ Instr.hlt.wf = true := by decide

/-! ### Decoding, words written out from the opcode map (30_encoding.md R87) -/

theorem test_decode_nop : decode (wordOf "000000") = .instr .nop := by decide
theorem test_decode_cla : decode (wordOf "010000") = .instr .cla := by decide
theorem test_decode_ldaAbs : decode (wordOf "021003") = .instr (.ldaAbs 3) := by decide
theorem test_decode_ldaInd : decode (wordOf "022999") = .instr (.ldaInd 999) := by decide
theorem test_decode_ldaInm : decode (wordOf "023+05") = .instr (.ldaInm (.plus 5)) := by decide
theorem test_decode_ldaRel : decode (wordOf "024-01") = .instr (.ldaRel (.minus 1)) := by decide
theorem test_decode_staAbs : decode (wordOf "031012") = .instr (.staAbs 12) := by decide
theorem test_decode_staInd : decode (wordOf "032005") = .instr (.staInd 5) := by decide
theorem test_decode_staInm : decode (wordOf "033005") = .instr (.staInm (.bare 5)) := by decide
theorem test_decode_staRel : decode (wordOf "034-07") = .instr (.staRel (.minus 7)) := by decide
theorem test_decode_addAbs : decode (wordOf "041003") = .instr (.addAbs 3) := by decide
theorem test_decode_addInd : decode (wordOf "042120") = .instr (.addInd 120) := by decide
theorem test_decode_addInm : decode (wordOf "043999") = .instr (.addInm (.bare 999)) := by decide
theorem test_decode_addRel : decode (wordOf "044+10") = .instr (.addRel (.plus 10)) := by decide
theorem test_decode_subAbs : decode (wordOf "051003") = .instr (.subAbs 3) := by decide
theorem test_decode_subInd : decode (wordOf "052040") = .instr (.subInd 40) := by decide
theorem test_decode_subInm : decode (wordOf "053-01") = .instr (.subInm (.minus 1)) := by decide
theorem test_decode_subRel : decode (wordOf "054-05") = .instr (.subRel (.minus 5)) := by decide
theorem test_decode_neg : decode (wordOf "060000") = .instr .neg := by decide
theorem test_decode_jmpAbs : decode (wordOf "071500") = .instr (.jmpAbs 500) := by decide
theorem test_decode_jmpInd : decode (wordOf "072005") = .instr (.jmpInd 5) := by decide
theorem test_decode_jmpInm : decode (wordOf "073005") = .instr (.jmpInm (.bare 5)) := by decide
theorem test_decode_jmpRel : decode (wordOf "074003") = .instr (.jmpRel (.bare 3)) := by decide
theorem test_decode_hlt : decode (wordOf "080000") = .instr .hlt := by decide

/-- V-CD-1 to V-CD-3, V-CD-6, V-CD-7. -/
theorem test_decode_skips_and_tails : decode .empty = .skipEmpty ∧ decode (wordOf "+00042") = .skipData ∧
    decode (wordOf "-00000") = .skipData ∧ decode (wordOf "000123") = .instr .nop ∧
    decode (wordOf "019999") = .instr .cla := by decide

/-- V-CD-10 to V-CD-14, V-CD-18 to V-CD-21, V-CD-24. -/
theorem test_decode_invalid : ∀ t ∈ ["091003", "AB1003", "025003", "020003", "02300A", "024+A1", "0211+2", "021+02",
    "022-01", "07300A"], decode (wordOf t) = .skipInvalid := by decide

/-- Log 2: the six characters of `021003` as the bytes of a number, the first one lowest; with 24 bits, `021` and zero
characters. -/
theorem test_tableWord : decodeTableWord 48 0x333030313230 = some (.ldaAbs 3) ∧
    decodeTableWord 24 0x313230 = some (.ldaAbs 0) ∧ decodeTableWord 48 0x333030313930 = none := by decide

/-- Log 3: CLA (`010000`) placed at reset runs as the first instruction. -/
theorem test_withFetchWord : (after (State.reset.withFetchWord 48 0x303030303130)).map
    (fun t => (t.regs.pc, t.regs.ir, t.observed.length)) = some (1, wordOf "010000", 4) := by decide

/-! ### The write gate, the assembler and the disassembler -/

/-- V-CV-1, V-CV-4, V-CV-8, V-CV-11, V-CV-21. -/
theorem test_validate_passes : validate [] = .ok .empty ∧
    ∀ t ∈ ["-00000", "021003", "023-99", "024999", "033005"], validate t.toList = .ok (wordOf t) := by decide

/-- V-CV-5 to V-CV-7, V-CV-9, V-CV-10, V-CV-12, V-CV-14, V-CV-16 to V-CV-20. -/
theorem test_validate_refuses :
    (∀ t ∈ ["021+03", "022-01"], validate t.toList = .error .signedOperandNotAllowed) ∧
    ∀ t ∈ ["+0004A", "+000042", "02100", "023+5A", "0210 3", "000001", "081000", "091003", "025003", "0A1003"],
      validate t.toList = .error .invalidWordFormat := by decide

/-- V-CE-1, V-CE-2, V-CE-11, V-CE-14, V-CE-18, V-CE-23, V-CE-27, V-CE-32, V-CE-35, V-CE-36. -/
theorem test_assemble_passes : ∀ p ∈ [("LDA ABS 003", "021003"), ("lda ABS 003", "021003"), ("LDA INM -01", "023-01"),
    ("SUB REL -05", "054-05"), ("nop", "000000"), ("STA INM 005", "033005"), ("021003", "021003"),
    ("-00000", "-00000"), ("   ", ""), ("\tJMP\tREL\t-05", "074-05")],
    assemble p.1.toList = .ok (wordOf p.2) := by decide

/-- V-CE-3, V-CE-5, V-CE-6, V-CE-8, V-CE-9, V-CE-15, V-CE-16, V-CE-22, V-CE-25, V-CE-28, V-CE-33, V-CE-34. -/
theorem test_assemble_refuses : ∀ p ∈ [("LDA abs 003", SyntaxError.unknownAddressingMode),
    ("LDA", .unknownAddressingMode), ("LDA ABS", .invalidOperandLength), ("LDA ABS 0003", .invalidOperandLength),
    ("LDA ABS +03", .signedOperandNotAllowed), ("LDA REL +1A", .invalidWordFormat),
    ("LDA ABS 003 x", .invalidWordFormat), ("HLT 000", .invalidWordFormat), ("FOO ABS 003", .unknownOpcode),
    ("021003 x", .invalidWordFormat), ("+0004", .unknownOpcode), ("+0004A", .invalidWordFormat)],
    assemble p.1.toList = .error p.2 := by decide

/-- V-CX-1 to V-CX-10. -/
theorem test_display : ∀ p ∈ [("", ""), ("+00042", "+00042"), ("021003", "LDA ABS 003"), ("043+10", "ADD INM +10"),
    ("074-05", "JMP REL -05"), ("000000", "NOP"), ("010000", "CLA"), ("000123", "NOP"), ("091003", "091003"),
    ("AB1003", "AB1003")], display (wordOf p.1) = p.2.toList := by decide

/-! ### The arithmetic unit -/

/-- V-AU-1 to V-AU-7. -/
theorem test_formatSigned : formatSigned 0 = wordOf "+00000" ∧ formatSigned (-1) = wordOf "-00001" ∧
    formatSigned 99999 = wordOf "+99999" ∧ formatSigned (-99999) = wordOf "-99999" ∧
    dataValue (wordOf "-00000") = 0 ∧ dataValue (formatSigned (-12345)) = -12345 := by decide

/-- V-AU-8 to V-AU-23. -/
theorem test_arithmetic : add 99999 0 = .result 99999 ∧ add 99999 1 = .overflow ∧ add (-99998) (-1) = .result (-99999) ∧
    add (-99999) (-1) = .overflow ∧ subtract 5 7 = .result (-2) ∧ subtract 99999 (-1) = .overflow ∧
    subtract (-1) 99999 = .overflow ∧ subtract 0 (-99999) = .result 99999 ∧ negate (-99999) = 99999 ∧
    negate 0 = 0 := by decide

/-! ### Instructions -/

/-- V-43-1. -/
theorem test_nop : seen (running 0 5 [(0, "000000")]) [] = some ⟨1, 0, 5, none, .empty, [], [], 3⟩ := by decide
/-- V-43-2. -/
theorem test_cla : seen (running 0 (-77) [(0, "010000")]) [] = some ⟨1, 0, 0, none, .empty, [], [], 4⟩ := by decide
/-- W1. -/
theorem test_ldaAbs : seen (running 0 0 [(0, "021003"), (3, "+00042")]) [] =
    some ⟨1, 0, 42, some 3, wordOf "+00042", [], [], 6⟩ := by decide
/-- V-43-5. -/
theorem test_ldaAbs_of_instruction : seen (running 0 9 [(0, "021003"), (3, "080000")]) [] =
    some ⟨1, 0, 9, some 3, wordOf "080000", [], [.nonDataOperand], 5⟩ := by decide
/-- V-43-6. -/
theorem test_ldaInd : seen (running 0 0 [(0, "022005"), (5, "+00007"), (7, "-00123")]) [] =
    some ⟨1, 0, -123, some 7, wordOf "-00123", [], [], 8⟩ := by decide
/-- V-43-8. -/
theorem test_ldaInd_pointer_1000 : seen (running 0 0 [(0, "022005"), (5, "+01000")]) [] =
    some ⟨1, 0, 0, some 5, wordOf "+01000", [], [.badIndirectAddress], 5⟩ := by decide
/-- V-43-20. -/
theorem test_ldaInm : seen (running 0 0 [(0, "023-99")]) [] = some ⟨1, 0, -99, none, .empty, [], [], 4⟩ := by decide
/-- V-43-15. -/
theorem test_ldaRel_highest : seen (running 11 0 [(11, "024987"), (999, "+00001")]) [] =
    some ⟨12, 11, 1, some 999, wordOf "+00001", [], [], 6⟩ := by decide
/-- V-43-13. -/
theorem test_ldaRel_below : seen (running 10 0 [(10, "024-12")]) [] =
    some ⟨11, 10, 0, none, .empty, [], [.outOfBounds], 3⟩ := by decide
/-- V-43-22. -/
theorem test_staAbs : seen (running 0 (-15) [(0, "031012")]) [12] =
    some ⟨1, 0, -15, some 12, .empty, [wordOf "-00015"], [], 5⟩ := by decide
/-- V-43-24. -/
theorem test_staAbs_own_cell : seen (running 0 7 [(0, "031000")]) [0] =
    some ⟨1, 0, 7, some 0, .empty, [wordOf "+00007"], [], 5⟩ := by decide
/-- V-43-25. -/
theorem test_staInd : seen (running 0 42 [(0, "032005"), (5, "+00009")]) [5, 9] =
    some ⟨1, 0, 42, some 9, wordOf "+00009", [wordOf "+00009", wordOf "+00042"], [], 7⟩ := by decide
/-- V-43-27. -/
theorem test_staInm : seen (running 0 42 [(0, "033005")]) [5] =
    some ⟨1, 0, 42, none, .empty, [.empty], [.invalidInstruction], 3⟩ := by decide
/-- V-43-29. -/
theorem test_staRel : seen (running 0 42 [(0, "034-01")]) [0] =
    some ⟨1, 0, 42, some 0, .empty, [wordOf "+00042"], [], 5⟩ := by decide
/-- V-43-30. -/
theorem test_staRel_below : seen (running 5 42 [(5, "034-07")]) [0, 5] =
    some ⟨6, 5, 42, none, .empty, [.empty, wordOf "034-07"], [.outOfBounds], 3⟩ := by decide
/-- V-44-1. -/
theorem test_addAbs : seen (running 0 10 [(0, "041003"), (3, "+00032")]) [] =
    some ⟨1, 0, 42, some 3, wordOf "+00032", [], [], 6⟩ := by decide
/-- W2. -/
theorem test_addAbs_overflow : seen (running 0 10 [(0, "041003"), (3, "+99999")]) [] =
    some ⟨1, 0, 10, some 3, wordOf "+99999", [], [.overflow], 5⟩ := by decide
/-- R170 with R122. -/
theorem test_addInd : seen (running 0 3 [(0, "042005"), (5, "+00007"), (7, "-00005")]) [] =
    some ⟨1, 0, -2, some 7, wordOf "-00005", [], [], 8⟩ := by decide
/-- V-44-2. -/
theorem test_addInm : seen (running 0 (-99998) [(0, "043-01")]) [] =
    some ⟨1, 0, -99999, none, .empty, [], [], 4⟩ := by decide
/-- R170 with R124: the base is the address after the instruction. -/
theorem test_addRel : seen (running 0 3 [(0, "044+01"), (1, "+00100"), (2, "+00010")]) [] =
    some ⟨1, 0, 13, some 2, wordOf "+00010", [], [], 6⟩ := by decide
/-- V-44-8. -/
theorem test_subAbs : seen (running 0 5 [(0, "051003"), (3, "+00007")]) [] =
    some ⟨1, 0, -2, some 3, wordOf "+00007", [], [], 6⟩ := by decide
/-- R171 with R122. -/
theorem test_subInd : seen (running 0 3 [(0, "052005"), (5, "+00007"), (7, "-00005")]) [] =
    some ⟨1, 0, 8, some 7, wordOf "-00005", [], [], 8⟩ := by decide
/-- V-44-12. -/
theorem test_subInm_overflow : seen (running 0 99999 [(0, "053-01")]) [] =
    some ⟨1, 0, 99999, none, .empty, [], [.overflow], 3⟩ := by decide
/-- V-44-13. -/
theorem test_subRel_below : seen (running 0 1 [(0, "054-05")]) [] =
    some ⟨1, 0, 1, none, .empty, [], [.outOfBounds], 3⟩ := by decide
/-- V-44-17. -/
theorem test_neg : seen (running 9 123 [(9, "060000")]) [] = some ⟨10, 9, -123, none, .empty, [], [], 4⟩ := by decide
/-- V-45-1. -/
theorem test_jmpAbs : seen (running 0 0 [(0, "071500")]) [] = some ⟨500, 0, 0, none, .empty, [], [], 3⟩ := by decide
/-- V-45-3. -/
theorem test_jmpInd : seen (running 0 0 [(0, "072005"), (5, "+00042")]) [] =
    some ⟨42, 0, 0, some 42, wordOf "+00042", [], [], 6⟩ := by decide
/-- V-45-7. -/
theorem test_jmpInm : seen (running 0 0 [(0, "073005")]) [] =
    some ⟨0, 0, 0, none, .empty, [], [.invalidInstruction], 1⟩ := by decide
/-- V-45-8. -/
theorem test_jmpRel : seen (running 10 0 [(10, "074-05")]) [] = some ⟨5, 10, 0, none, .empty, [], [], 3⟩ := by decide
/-- W3. -/
theorem test_jmpRel_base : seen (running 0 0 [(0, "074003")]) [] = some ⟨3, 0, 0, none, .empty, [], [], 3⟩ := by decide
/-- V-45-12. -/
theorem test_hlt : (after (running 5 0 [(5, "080000")])).map (fun t => (t.regs.pc, t.regs.pcPrev, t.rs, t.reply)) =
    some (6, 5, .halted, some (.ran .halted)) := by decide

/-! ### Sequencer and host port -/

/-- V-CS-Q2. -/
theorem test_skip_data : seen (running 6 1 [(6, "-00007")]) [] = some ⟨7, 6, 1, none, .empty, [], [], 3⟩ := by decide
/-- V-CS-Q3: the record is made before the skip. -/
theorem test_skip_invalid : (after (running 0 0 [(0, "091003")])).map (fun t => (t.regs.pc, t.cl)) =
    some (1, [⟨.invalidWordFormat, 0, 0, wordOf "091003"⟩]) := by decide
/-- V-CS-Q5. -/
theorem test_end_of_memory : (after (running 1000 0 [])).map (fun t => (t.rs, t.regs.pc, t.observed)) =
    some (.ended, 1000, []) := by decide
/-- V-46-5: an empty text clears the cell. -/
theorem test_edit_empty : (after (asking (.edit 5 []) [(5, "+00001")])).map (fun t => t.mem.cells) = some [] := by decide
/-- R191, R192: the lines before the one that fails stay stored. -/
theorem test_load_stops : (after (asking (.load 998 ["HLT".toList, "NOP".toList, "CLA".toList]) [])).map
    (fun t => (t.mem.cells, t.reply)) = some ([(998, wordOf "080000"), (999, wordOf "000000")],
      some (.loadFailed 2 .addressOutOfRange)) := by decide

/-! ### Witnesses: values that meet the hypotheses of each obligation, clause by clause -/

theorem witness_SignedWordsAreData : ('+' = '+' ∨ '+' = '-') ∧ ('-' = '+' ∨ '-' = '-') := by decide

theorem witness_DecodeAfterEncode : (Instr.ldaAbs 999).wf = true ∧ (Instr.staInd 0).wf = true ∧
    (Instr.addInm (.plus 99)).wf = true ∧ (Instr.jmpRel (.minus 99)).wf = true ∧ Instr.neg.wf = true := by decide

theorem witness_EncodeAfterDecode :
    (decode (.chars '0' '2' '2' '9' '9' '9') = .instr (.ldaInd 999) ∧ (Instr.ldaInd 999).operand ≠ none) ∧
    (decode (.chars '0' '6' '0' '1' '2' '3') = .instr .neg ∧ Instr.neg.operand = none) := by decide

/-- For GateReturnsItsText, GateNeverPassesInvalid and AssembleAfterDisplay: a word of each kind the gate passes. -/
theorem witness_gate : validate [] = .ok .empty ∧ validate "-99999".toList = .ok (wordOf "-99999") ∧
    validate "074-99".toList = .ok (wordOf "074-99") ∧ validate "080000".toList = .ok (wordOf "080000") := by decide

theorem witness_GatePassesEncoded : (Instr.subRel (.bare 999)).wf = true ∧ Instr.hlt.wf = true := by decide

theorem witness_AssembleInstructionLine : [' ', '\t'].all isBlank = true ∧
    (Instr.hlt.wf = true ∧ Instr.hlt.operand = none) ∧
    ((Instr.jmpRel (.minus 99)).wf = true ∧ (Instr.jmpRel (.minus 99)).operand = some (.rel (.minus 99)) ∧
      ([' ', '\t'] : Text) ≠ []) := by decide

theorem witness_MnemonicCaseInsensitive : "lDa".toList.map upperChar = opcodeName .lda := by decide

theorem witness_FormatSignedParses : (-99999 : Int).natAbs ≤ 99999 ∧ (99999 : Int).natAbs ≤ 99999 ∧
    isData (wordOf "-00001") = true ∧ wordOf "-00001" ≠ .chars '-' '0' '0' '0' '0' '0' := by decide

theorem witness_AddExactOrOverflow : (99998 : Int).natAbs ≤ 99999 ∧ (1 : Int).natAbs ≤ 99999 ∧
    (2 : Int).natAbs ≤ 99999 ∧ ((99998 : Int) + 1).natAbs ≤ 99999 ∧ 99999 < ((99998 : Int) + 2).natAbs := by decide

theorem witness_SubtractExactOrOverflow : (-99998 : Int).natAbs ≤ 99999 ∧ (1 : Int).natAbs ≤ 99999 ∧
    (2 : Int).natAbs ≤ 99999 ∧ ((-99998 : Int) - 1).natAbs ≤ 99999 ∧ 99999 < ((-99998 : Int) - 2).natAbs := by decide

theorem witness_NegateInRange : (-99999 : Int).natAbs ≤ 99999 ∧ (0 : Int).natAbs ≤ 99999 := by decide

/-- Two memories written in different orders. -/
theorem witness_ReadsDetermineMemory :
    (((Memory.mk []).write 0 (wordOf "+00001")).write 999 (wordOf "080000")).wf ∧
    (((Memory.mk []).write 999 (wordOf "080000")).write 0 (wordOf "+00001")).wf ∧
    ∀ a, a ≤ 999 → (((Memory.mk []).write 0 (wordOf "+00001")).write 999 (wordOf "080000")).read a =
      (((Memory.mk []).write 999 (wordOf "080000")).write 0 (wordOf "+00001")).read a :=
  ⟨by decide, by decide, fun _ _ => rfl⟩

/-- The STA at 0 writes cell 12; the HLT at 999 is an instruction before and after. -/
theorem witness_RunCreatesNoInstruction : (running 0 7 [(0, "031012"), (999, "080000")]).request = none ∧
    ∃ t, step (running 0 7 [(0, "031012"), (999, "080000")]) = .next t ∧ decode (t.mem.read 999) = .instr .hlt :=
  ⟨rfl, _, rfl, by decide⟩

/-- ABSOLUTE at 999, INDIRECT through 0 to 999, RELATIVE to 0 and to 999: for LdaCompletes, and with AC 99998 and -99998
for AddCompletes and SubCompletes. -/
theorem witness_memory_operands : ∀ s ∈ [running 10 99998 [(0, "+00999"), (999, "+00001")]],
    (999 ≤ 999 ∧ isData (s.mem.read 999) = true) ∧
    (0 ≤ 999 ∧ isData (s.mem.read 0) = true ∧ dataValue (s.mem.read 0) = (999 : Nat) ∧ 999 ≤ 999 ∧
      isData (s.mem.read 999) = true) ∧
    (((0 : Nat) : Int) = s.regs.pc + 1 + sval (.minus 11) ∧ 0 ≤ 999 ∧ isData (s.mem.read 0) = true) ∧
    (((999 : Nat) : Int) = s.regs.pc + 1 + sval (.bare 988) ∧ isData (s.mem.read 999) = true) ∧
    (s.regs.ac + dataValue (s.mem.read 999)).natAbs ≤ 99999 ∧ (s.regs.ac + sval (.plus 1)).natAbs ≤ 99999 := by decide

theorem witness_SubCompletes : ∀ s ∈ [running 10 (-99998) [(0, "+00999"), (999, "+00001")]],
    (999 ≤ 999 ∧ isData (s.mem.read 999) = true) ∧
    (0 ≤ 999 ∧ isData (s.mem.read 0) = true ∧ dataValue (s.mem.read 0) = (999 : Nat)) ∧
    (((999 : Nat) : Int) = s.regs.pc + 1 + sval (.bare 988) ∧ isData (s.mem.read 999) = true) ∧
    (s.regs.ac - dataValue (s.mem.read 999)).natAbs ≤ 99999 ∧ (s.regs.ac - sval (.plus 1)).natAbs ≤ 99999 := by decide

theorem witness_StaCompletes : ∀ s ∈ [running 999 (-99999) [(0, "+00999"), (999, "034-01")]],
    999 ≤ 999 ∧ s.regs.ac.natAbs ≤ 99999 ∧ pointerAddress (s.mem.read 0) = some 999 ∧
    relativeAddress (.minus 1) (preIncrement s) = some 999 := by decide

theorem witness_JmpCompletes : ∀ s ∈ [running 10 0 [(0, "+00999"), (5, "-00000")]],
    (0 ≤ 999 ∧ isData (s.mem.read 0) = true ∧ dataValue (s.mem.read 0) = (999 : Nat) ∧ 999 ≤ 999) ∧
    (isData (s.mem.read 5) = true ∧ dataValue (s.mem.read 5) = (0 : Nat)) ∧
    (((0 : Nat) : Int) = s.regs.pc + sval (.minus 10) ∧ 0 ≤ 999) ∧
    (((999 : Nat) : Int) = s.regs.pc + sval (.bare 989) ∧ 999 ≤ 999) := by decide

/-- OverflowReported, for ADD, in each mode; the sum is 100000. -/
theorem witness_OverflowReported_add : ∀ s ∈ [running 10 99999 [(0, "+00999"), (999, "+00001")]],
    (999 ≤ 999 ∧ isData (s.mem.read 999) = true) ∧
    (0 ≤ 999 ∧ isData (s.mem.read 0) = true ∧ dataValue (s.mem.read 0) = (999 : Nat)) ∧
    ((999 : Nat) : Int) = s.regs.pc + 1 + sval (.bare 988) ∧
    99999 < (s.regs.ac + dataValue (s.mem.read 999)).natAbs ∧ 99999 < (s.regs.ac + sval (.bare 1)).natAbs := by decide

/-- OverflowReported, for SUB, in each mode; the difference is -100000. -/
theorem witness_OverflowReported_sub : ∀ s ∈ [running 10 (-99999) [(0, "+00999"), (999, "+00001")]],
    (999 ≤ 999 ∧ isData (s.mem.read 999) = true) ∧
    (0 ≤ 999 ∧ isData (s.mem.read 0) = true ∧ dataValue (s.mem.read 0) = (999 : Nat)) ∧
    ((999 : Nat) : Int) = s.regs.pc + 1 + sval (.bare 988) ∧
    99999 < (s.regs.ac - dataValue (s.mem.read 999)).natAbs ∧ 99999 < (s.regs.ac - sval (.bare 1)).natAbs := by decide

/-- -1 and 1000, for LDA, STA, ADD and SUB and then for JMP. -/
theorem witness_OutOfBoundsReported : ∀ s ∈ [running 10 0 []],
    (s.regs.pc : Int) + 1 + sval (.minus 12) < 0 ∧ 999 < (s.regs.pc : Int) + 1 + sval (.bare 989) ∧
    (s.regs.pc : Int) + sval (.minus 11) < 0 ∧ 999 < (s.regs.pc : Int) + sval (.bare 990) := by decide

theorem witness_NonDataOperandReported : ∀ s ∈ [running 10 0 [(0, "+00999"), (999, "080000")]],
    (999 ≤ 999 ∧ isData (s.mem.read 999) = false) ∧
    (0 ≤ 999 ∧ isData (s.mem.read 0) = true ∧ dataValue (s.mem.read 0) = (999 : Nat)) ∧
    (((999 : Nat) : Int) = s.regs.pc + 1 + sval (.bare 988) ∧ isData (s.mem.read 999) = false) := by decide

theorem witness_BadIndirectAddressReported : ∀ s ∈ [running 10 0 [(1, "-00001"), (999, "+01000")]],
    isData (s.mem.read 0) = false ∧ dataValue (s.mem.read 1) < 0 ∧ 999 < dataValue (s.mem.read 999) := by decide

/-- AtMostOneConditionPerCycle: a cycle with a record. -/
theorem witness_AtMostOneConditionPerCycle : (running 0 0 [(0, "073005")]).request = none ∧
    ∃ t, step (running 0 0 [(0, "073005")]) = .next t ∧ t.cl.length = 1 :=
  ⟨rfl, _, rfl, rfl⟩

/-- OnlyArithmeticAndLoadsWriteAC, with an STA. -/
theorem witness_OnlyArithmeticAndLoadsWriteAC :
    (∃ t, exec (.staAbs 999) (running 0 42 []) = .next t) ∧
    (Instr.staAbs 999).opcode ∉ [.cla, .lda, .add, .sub, .neg] := ⟨⟨_, rfl⟩, by decide⟩

/-- OnlyStaWritesMemory, a store and an instruction that stores nothing. -/
theorem witness_OnlyStaWritesMemory : (∃ t, exec (.staAbs 999) (running 0 42 []) = .next t) ∧
    ∃ t, exec .cla (running 0 42 []) = .next t := ⟨⟨_, rfl⟩, ⟨_, rfl⟩⟩

/-- OnlyHltChangesRunState, both clauses. -/
theorem witness_OnlyHltChangesRunState : (∃ t, exec .nop (running 999 0 []) = .next t) ∧ Instr.nop.opcode ≠ .hlt ∧
    (∃ t, exec .hlt (running 999 0 []) = .next t) ∧ Instr.hlt.opcode = .hlt := ⟨⟨_, rfl⟩, by decide, ⟨_, rfl⟩, rfl⟩

/-- PreIncrementAlwaysHappens, at 999 and with a condition. -/
theorem witness_PreIncrementAlwaysHappens : (∃ t, exec (.staInm (.bare 5)) (running 999 0 []) = .next t) ∧
    (Instr.staInm (.bare 5)).opcode ≠ .jmp := ⟨⟨_, rfl⟩, by decide⟩

/-- JmpStaysInMemory, a jump to 999 and one that fails. -/
theorem witness_JmpStaysInMemory : ((Instr.jmpAbs 999).wf = true ∧ (Instr.jmpAbs 999).opcode = .jmp ∧
      ∃ t, exec (.jmpAbs 999) (running 0 0 []) = .next t) ∧
    ((Instr.jmpInm (.plus 99)).wf = true ∧ (Instr.jmpInm (.plus 99)).opcode = .jmp ∧
      ∃ t, exec (.jmpInm (.plus 99)) (running 0 0 []) = .next t) :=
  ⟨⟨rfl, rfl, _, rfl⟩, ⟨rfl, rfl, _, rfl⟩⟩

/-- StagingRegisterWriters, first clause: no operand, IMMEDIATE. -/
theorem witness_StagingRegisterWriters_none_or_immediate :
    ((∃ t, exec .neg (running 0 5 []) = .next t) ∧ Instr.neg.operand = none) ∧
    ((∃ t, exec (.ldaInm (.minus 9)) (running 0 5 []) = .next t) ∧
      (Instr.ldaInm (.minus 9)).operand = some (.inm (.minus 9))) := ⟨⟨⟨_, rfl⟩, rfl⟩, ⟨_, rfl⟩, rfl⟩

/-- StagingRegisterWriters, first clause: JMP ABSOLUTE. -/
theorem witness_StagingRegisterWriters_jmp : (∃ t, exec (.jmpAbs 9) (running 0 5 []) = .next t) ∧
    (Instr.jmpAbs 9).opcode = .jmp ∧ ∀ p, (Instr.jmpAbs 9).operand ≠ some (.ind p) :=
  ⟨⟨_, rfl⟩, rfl, by intro p; simp [Instr.operand]⟩

/-- StagingRegisterWriters, second clause: STA ABSOLUTE. -/
theorem witness_StagingRegisterWriters_sta : (∃ t, exec (.staAbs 9) (running 0 5 []) = .next t) ∧
    (Instr.staAbs 9).opcode = .sta ∧ ∀ p, (Instr.staAbs 9).operand ≠ some (.ind p) :=
  ⟨⟨_, rfl⟩, rfl, by intro p; simp [Instr.operand]⟩

/-- StepRunsDecoded, at the last address. -/
theorem witness_StepRunsDecoded : ∀ s ∈ [running 999 0 [(999, "080000")]], s.request = none ∧ s.rs = .running ∧
    s.regs.pc ≤ 999 ∧ decode (s.mem.read s.regs.pc) = .instr .hlt := by decide

/-- StepSkipsData, both clauses, at the first and the last address. -/
theorem witness_StepSkipsData :
    (∀ s ∈ [running 0 0 []], s.request = none ∧ s.rs = .running ∧ s.regs.pc ≤ 999 ∧
      decode (s.mem.read s.regs.pc) = .skipEmpty) ∧
    (∀ s ∈ [running 999 0 [(999, "-99999")]], s.request = none ∧ s.rs = .running ∧ s.regs.pc ≤ 999 ∧
      decode (s.mem.read s.regs.pc) = .skipData) := by decide

/-- The record is any that meets its equation. -/
theorem witness_StepReportsInvalid : ∀ s ∈ [running 999 0 [(999, "091003")]], s.request = none ∧ s.rs = .running ∧
    s.regs.pc ≤ 999 ∧ decode (s.mem.read s.regs.pc) = .skipInvalid := by decide

/-- StepEndsOrIdles, both clauses. -/
theorem witness_StepEndsOrIdles :
    ((running 1000 0 []).request = none ∧ (running 1000 0 []).rs = .running ∧ 1000 ≤ (running 1000 0 []).regs.pc) ∧
    (State.reset.request = none ∧ State.reset.rs ≠ .running) := by decide

theorem witness_ObserverSeesFetchAndResult : (running 999 0 [(999, "054+02")]).request = none ∧
    (running 999 0 [(999, "054+02")]).rs = .running ∧ (running 999 0 [(999, "054+02")]).regs.pc ≤ 999 ∧
    ∃ t, step (running 999 0 [(999, "054+02")]) = .next t := ⟨rfl, rfl, by decide, _, rfl⟩

theorem witness_RunStarts : (asking .run [(0, "080000")]).request = some .run ∧
    (asking .run [(0, "080000")]).rs ≠ .running := by decide

/-- BusyDuringRun, both clauses. -/
theorem witness_BusyDuringRun :
    (∀ s ∈ [({ running 5 0 [] with request := some .run } : State)], s.request = some .run ∧ s.rs = .running) ∧
    (∀ w, HostRequest.run ≠ .disassemble w) ∧
    (asking (.disassemble (wordOf "074-05")) []).request = some (.disassemble (wordOf "074-05")) :=
  ⟨by decide, by intro w; simp, rfl⟩

theorem witness_SnapshotReportsState : (asking .snapshot [(999, "+00001")]).request = some .snapshot ∧
    (asking .snapshot [(999, "+00001")]).rs ≠ .running := by decide

/-- EditStoresOrRefuses: below, above, a text the gate refuses at 0, one it passes at 999. -/
theorem witness_EditStoresOrRefuses : (asking (.edit 999 "021003".toList) []).rs ≠ .running ∧
    (asking (.edit 999 "021003".toList) []).request = some (.edit 999 "021003".toList) ∧
    (asking (.edit 999 "021003".toList) []).mem.wf ∧ ((-1 : Int) < 0 ∧ (999 : Int) < 1000) ∧
    ((0 : Int) ≤ 0 ∧ (0 : Int) ≤ 999 ∧ validate "021+03".toList = .error .signedOperandNotAllowed) ∧
    ((0 : Int) ≤ 999 ∧ validate "021003".toList = .ok (wordOf "021003")) := by decide

/-- LoadStoresBatch, up to the last address. -/
theorem witness_LoadStoresBatch :
    ∀ s ∈ [asking (.load 998 ["NOP".toList, "+00001".toList]) [(0, "080000")]],
      s.request = some (.load 998 ["NOP".toList, "+00001".toList]) ∧ s.rs ≠ .running ∧ s.mem.wf ∧
      998 + ["NOP".toList, "+00001".toList].length ≤ 1000 ∧
      ["NOP".toList, "+00001".toList].map assemble = [wordOf "000000", wordOf "+00001"].map Except.ok := by decide

/-- LoadStopsAtFailure: a line that does not encode, at 999 (the first clause). -/
theorem witness_LoadStopsAtFailure_text :
    ∀ s ∈ [asking (.load 998 (["NOP".toList] ++ "FOO".toList :: ["HLT".toList])) []],
      s.request = some (.load 998 (["NOP".toList] ++ "FOO".toList :: ["HLT".toList])) ∧ s.rs ≠ .running ∧ s.mem.wf ∧
      998 + ["NOP".toList].length ≤ 1000 ∧ ["NOP".toList].map assemble = [wordOf "000000"].map Except.ok ∧
      assemble "FOO".toList = .error .unknownOpcode ∧ 998 + ["NOP".toList].length ≤ 999 := by decide

/-- LoadStopsAtFailure: a line that has no address (the second clause). -/
theorem witness_LoadStopsAtFailure_address :
    ∀ s ∈ [asking (.load 999 (["NOP".toList] ++ "CLA".toList :: ["HLT".toList])) []],
      s.request = some (.load 999 (["NOP".toList] ++ "CLA".toList :: ["HLT".toList])) ∧ s.rs ≠ .running ∧ s.mem.wf ∧
      ["NOP".toList].map assemble = [wordOf "000000"].map Except.ok ∧
      assemble "CLA".toList = .ok (wordOf "010000") ∧ 999 + ["NOP".toList].length = 1000 := by decide

/-- A running machine in range: for StepKeepsRanges and StepNeverStops, with the step it takes. -/
theorem witness_StepKeepsRanges : (running 999 (-99999) [(0, "+00001"), (999, "060000")]).Inv ∧
    ∃ t, step (running 999 (-99999) [(0, "+00001"), (999, "060000")]) = .next t :=
  ⟨⟨by decide, by decide, by decide, (fun a h => by simp [running, State.reset] at h), by decide⟩, _, rfl⟩

/-- StepKeepsRunEnds, at a step that halts at the last address. -/
theorem witness_StepKeepsRunEnds : (running 999 0 [(999, "080000")]).Inv ∧ (running 999 0 [(999, "080000")]).EndInv ∧
    ∃ t, step (running 999 0 [(999, "080000")]) = .next t ∧ t.rs = .halted :=
  ⟨⟨by decide, by decide, by decide, (fun a h => by simp [running, State.reset] at h), by decide⟩,
    ⟨by decide, by decide, by decide⟩, _, rfl, rfl⟩

/-- StepKeepsGate, at a step that records a condition. -/
theorem witness_StepKeepsGate : (running 999 0 [(999, "024000")]).Inv ∧ (running 999 0 [(999, "024000")]).Gated ∧
    ∃ t, step (running 999 0 [(999, "024000")]) = .next t ∧ t.cl.length = 1 := by
  refine ⟨⟨by decide, by decide, by decide, (fun a h => by simp [running, State.reset] at h), by decide⟩,
    ⟨fun a => ?_, by decide⟩, _, rfl, rfl⟩
  by_cases h : 999 = a
  · subst h; decide
  · simp [running, Memory.read, readCells, h, decode]

/-- FailedJmpLivelocks, the three ways of failing, at 0 and at 999. -/
theorem witness_FailedJmpLivelocks : ∀ s ∈ [running 0 0 [(0, "073005"), (999, "+01000")], running 0 0 [(0, "074-01")],
    running 999 0 [(999, "074+01")], running 0 0 [(0, "072001")], running 0 0 [(0, "072999"), (999, "+01000")]],
    s.request = none ∧ s.rs = .running ∧ s.regs.pc ≤ 999 ∧
    (decode (s.mem.read s.regs.pc) = .instr (.jmpInm (.bare 5)) ∨
     (decode (s.mem.read s.regs.pc) = .instr (.jmpRel (.minus 1)) ∧ (s.regs.pc : Int) + sval (.minus 1) < 0) ∨
     (decode (s.mem.read s.regs.pc) = .instr (.jmpRel (.plus 1)) ∧ 999 < (s.regs.pc : Int) + sval (.plus 1)) ∨
     (decode (s.mem.read s.regs.pc) = .instr (.jmpInd 1) ∧ isData (s.mem.read 1) = false) ∨
     (decode (s.mem.read s.regs.pc) = .instr (.jmpInd 999) ∧ 999 < dataValue (s.mem.read 999))) := by decide

end Sys2Proof.Tests
end

section
/-! SUPPORT. What decoding gives, which steps keep the registers in range and memory in its form, and the proofs of the
statements about the state (10_state.md). -/

namespace Sys2Proof

/-! ### What the decoder gives is well formed -/

theorem Instr.wf_of_operand_none {i : Instr} (h : i.operand = none) : i.wf = true := by simp [Instr.wf, h]

theorem Instr.wf_of_operand_some {i : Instr} {o : Operand} (h : i.operand = some o) : i.wf = o.wf := by
  simp [Instr.wf, h]

/-- R68, R69, R70: an instruction read from the fields of a word is well formed. -/
theorem decodeFields_instr_wf {op : Opcode} {a p0 p1 p2 : Char} {i : Instr}
    (h : decodeFields op a p0 p1 p2 = .instr i) : i.wf = true := by
  unfold decodeFields at h
  split at h
  · rename_i j hop
    cases h
    exact Instr.wf_of_operand_none (opcode_operand_of_inl hop).2
  · rename_i mk hop
    split at h
    · cases h
    · split at h
      · cases h
      · rename_i o ho
        cases h
        rw [Instr.wf_of_operand_some (opcode_operand_of_inr hop o).2]
        exact (operandOf_eq_some ho).2.1

/-- R70: an instruction read from a word is well formed. -/
theorem decode_instr_wf {w : Word} {i : Instr} (h : decode w = .instr i) : i.wf = true := by
  unfold decode at h
  split at h
  · cases h
  · split_ifs at h
    split at h
    · cases h
    · exact decodeFields_instr_wf h

/-! ### Operand forms that stage nothing -/

/-- R123, R127 (D17): the forms that need no operand address from the resolver: no operand, IMMEDIATE, and every JMP but
JMP IND. -/
def Instr.StagesNothing (i : Instr) : Prop :=
  i.operand = none ∨ (∃ d, i.operand = some (.inm d)) ∨ (i.opcode = .jmp ∧ ∀ p, i.operand ≠ some (.ind p))

theorem Instr.StagesNothing.not_indirect {i : Instr} {o : Operand} (h : i.StagesNothing)
    (ho : i.operand = some o) (p : Nat) : o ≠ .ind p := by
  rcases h with h | ⟨d, h⟩ | ⟨-, h⟩
  · simp [ho] at h
  · obtain rfl := Option.some.inj (ho.symm.trans h)
    simp
  · simpa [ho] using h p

theorem Instr.StagesNothing.immediate {i : Instr} {o : Operand} (h : i.StagesNothing)
    (ho : i.operand = some o) (hop : i.opcode ≠ .jmp) : ∃ d, o = .inm d := by
  rcases h with h | ⟨d, h⟩ | ⟨hjmp, -⟩
  · simp [ho] at h
  · exact ⟨d, by simpa [ho] using h⟩
  · exact absurd hjmp hop

namespace Machine

/-! ### Memory in canonical form -/

theorem readCells_of_mem {a : Nat} {w : Word} {l : List (Nat × Word)} (hl : l.Pairwise fun x y => x.1 < y.1)
    (h : (a, w) ∈ l) : readCells a l = w := by
  induction l with
  | nil => cases h
  | cons c rest ih =>
    obtain ⟨hc, hrest⟩ := List.pairwise_cons.mp hl
    rcases List.mem_cons.mp h with rfl | h
    · simp [readCells]
    · have hne : c.1 ≠ a := (hc _ h).ne
      simpa [readCells, hne] using ih hrest h

/-- R30: in canonical form the entries are the cells that do not read `Empty`. -/
theorem mem_cells_iff {m : Memory} (hm : m.wf) (a : Nat) (w : Word) :
    (a, w) ∈ m.cells ↔ m.read a = w ∧ w ≠ .empty :=
  ⟨fun h => ⟨readCells_of_mem hm.1 h, (hm.2 _ h).2⟩, fun ⟨hr, hw⟩ => readCells_mem hr hw⟩

/-- Canonical memories that read alike within the address space (R43) have the same entries, and rising lists of the
same entries are equal. -/
theorem Memory.eq_of_read_eq {m1 m2 : Memory} (h1 : m1.wf) (h2 : m2.wf) (h : ∀ a ≤ 999, m1.read a = m2.read a) :
    m1 = m2 := by
  have hread (a : Nat) : m1.read a = m2.read a := by
    by_cases ha : a ≤ 999
    · exact h a ha
    · rw [Memory.read_beyond h1 (by omega), Memory.read_beyond h2 (by omega)]
  have hentries : ∀ c, c ∈ m1.cells ↔ c ∈ m2.cells := fun ⟨a, w⟩ => by
    rw [mem_cells_iff h1, mem_cells_iff h2, hread]
  have hirrefl : Std.Irrefl fun x y : Nat × Word => x.1 < y.1 := ⟨fun x => lt_irrefl x.1⟩
  have hcells : m1.cells = m2.cells := h1.1.eq_of_mem_iff h2.1 hentries
  exact congrArg Memory.mk hcells

/-! ### Which operations keep the ranges (10_state.md R20) -/

namespace State.Inv

variable {s s1 : State} (h : s.Inv)
include h

theorem clearPorts : (clearPorts s).Inv := { h with }

theorem readIR (a : Nat) : (readIR a s).Inv := { h with }

theorem report (c : Condition) : (report c s).Inv := { h with }

theorem endRun (e : RunState) : (endRun e s).Inv := { h with }

/-- R37: a run starts at address 0. -/
theorem startRun : (startRun s).Inv := { h with pc_le := by simp, pcPrev_le := by simp }

/-- R22, R24: an increment from an address of the machine. -/
theorem preIncrement (hpc : s.regs.pc ≤ 999) : (preIncrement s).Inv :=
  { h with pc_le := Nat.succ_le_succ hpc, pcPrev_le := hpc }

theorem skipCell (hpc : s.regs.pc ≤ 999) : (skipCell s).Inv := h.preIncrement hpc

theorem transfer {t : Nat} (hpc : s.regs.pc ≤ 999) (ht : t ≤ 999) : (transfer t s).Inv :=
  { h with pc_le := Nat.le_succ_of_le ht, pcPrev_le := hpc }

theorem writeAC {v : Int} (hv : v.natAbs ≤ 99999) : (writeAC v s).Inv := { h with ac_inRange := hv }

theorem writeMem {a : Nat} (ha : a < 1000) (w : Word) : (writeMem a w s).Inv :=
  { h with mem_wf := Memory.write_keeps_form h.mem_wf ha w }

/-- R128: a resolution whose addresses lie in the machine. -/
theorem resolved (hf : ResolverFrame s s1)
    (hmar : s1.regs.mar = s.regs.mar ∨ ∃ a ≤ 999, s1.regs.mar = some a) : s1.Inv where
  pc_le := hf.pc ▸ h.pc_le
  pcPrev_le := hf.pcPrev ▸ h.pcPrev_le
  ac_inRange := hf.ac ▸ h.ac_inRange
  mem_wf := hf.mem ▸ h.mem_wf
  mar_le b hb := by
    rcases hmar with hkept | ⟨a, ha, hset⟩
    · exact h.mar_le b (hkept ▸ hb)
    · obtain rfl : a = b := by simpa [hset] using hb
      exact ha

/-- R105: the unit's results are in range. -/
theorem writeResult {r : ArithResult} (hr : ∀ v, r = .result v → v.natAbs ≤ 99999) : (writeResult r s).Inv := by
  rcases writeResult_cases r s with ⟨v, hv, e⟩ | ⟨-, e⟩ <;> rw [e]
  · exact h.writeAC (hr v hv)
  · exact h.report .overflow

/-- R190: no request of the host takes a register or memory out of its range. -/
theorem serve (r : HostRequest) : (serve r s).Inv := by
  rcases serve_cases r s with ⟨-, -, e⟩ | ⟨m, rp, e, -⟩
  · rw [e]
    exact h.startRun
  · have hmem : (Machine.serve r s).mem.wf := serve_mem h.mem_wf
      (fun _ _ w _ hm ha _ => Memory.write_keeps_form hm ha w)
      (fun _ _ w _ hm ha _ => Memory.write_keeps_form hm ha w)
    rw [e] at hmem ⊢
    exact { h with mem_wf := hmem }

end State.Inv

/-! ### The meanings keep the ranges -/

theorem narrow_result_inRange {r v : Int} (h : narrow r = .result v) : v.natAbs ≤ 99999 := by
  obtain ⟨rfl, hr⟩ := narrow_eq_result h
  exact hr

section
variable {o : Operand} {s t : State} (hw : o.wf = true)
include hw

theorem loadAccumulator_keeps_inv (hs : (preIncrement s).Inv) (h : loadAccumulator o s = .next t) : t.Inv := by
  have hres := resolveValue_within o (preIncrement s)
  rcases loadAccumulator_next h with ⟨v, s1, hr, rfl⟩ | ⟨c, s1, hr, rfl⟩
  · obtain ⟨hf, hv⟩ := hres.of_ok hr
    obtain ⟨hrange, hmar⟩ := hv hw
    exact (hs.resolved hf hmar).writeAC hrange
  · obtain ⟨hf, -, hmar⟩ := hres.of_fail hr
    exact (hs.resolved hf (hmar hw)).report c

theorem combineAccumulator_keeps_inv {f : Int → Int → ArithResult}
    (hfr : ∀ a b v, f a b = .result v → v.natAbs ≤ 99999)
    (hs : (preIncrement s).Inv) (h : combineAccumulator f o s = .next t) : t.Inv := by
  have hres := resolveValue_within o (preIncrement s)
  rcases combineAccumulator_next h with ⟨v, s1, hr, rfl⟩ | ⟨c, s1, hr, rfl⟩
  · obtain ⟨hf, hv⟩ := hres.of_ok hr
    exact (hs.resolved hf (hv hw).2).writeResult (hfr _ _)
  · obtain ⟨hf, -, hmar⟩ := hres.of_fail hr
    exact (hs.resolved hf (hmar hw)).report c

theorem storeAccumulator_keeps_inv (hs : (preIncrement s).Inv) (h : storeAccumulator o s = .next t) : t.Inv := by
  have hres := resolveAddr_within o (preIncrement s)
  rcases storeAccumulator_next h with ⟨a, s1, hr, ha, -, rfl⟩ | ⟨c, s1, hr, rfl⟩
  · obtain ⟨hf, hmar, -⟩ := hres.of_ok hr
    exact (hs.resolved hf (.inr ⟨a, by omega, hmar⟩)).writeMem ha _
  · obtain ⟨hf, -, hmar⟩ := hres.of_fail hr
    exact (hs.resolved hf (hmar hw)).report c

theorem jump_keeps_inv (hs : s.Inv) (hpc : s.regs.pc ≤ 999) (h : jump o s = .next t) : t.Inv := by
  have hres := resolveTarget_within o s
  rcases jump_next h with ⟨a, s1, hr, rfl⟩ | ⟨c, s1, hr, rfl⟩
  · obtain ⟨hf, hv⟩ := hres.of_ok hr
    obtain ⟨ha, hmar⟩ := hv hw
    exact (hs.resolved hf hmar).transfer (hf.pc ▸ hpc) ha
  · obtain ⟨hf, -, hmar⟩ := hres.of_fail hr
    exact (hs.resolved hf (hmar hw)).report c

end

/-- R20: an instruction that a word can hold, fetched from 0..999, keeps the ranges. -/
theorem exec_keeps_inv {i : Instr} {s t : State} (hw : i.wf = true) (hs : s.Inv) (hpc : s.regs.pc ≤ 999)
    (h : exec i s = .next t) : t.Inv := by
  have hp := hs.preIncrement hpc
  rcases exec_cases i s with ⟨-, -, e⟩ | ⟨-, -, e⟩ | ⟨-, -, e⟩ | ⟨-, -, -, e⟩ |
    ⟨o, -, hwf, ⟨-, e⟩ | ⟨-, e⟩ | ⟨-, e⟩ | ⟨-, e⟩ | ⟨-, e⟩⟩ <;> rw [e] at h
  · cases h; exact hp
  · cases h; exact hp.writeAC (by simp)
  · cases h; exact hp.writeAC (by simpa using hs.ac_inRange)
  · cases h; exact hp.endRun .halted
  all_goals rw [hwf] at hw
  · exact loadAccumulator_keeps_inv hw hp h
  · exact storeAccumulator_keeps_inv hw hp h
  · exact combineAccumulator_keeps_inv hw (fun _ _ _ => narrow_result_inRange) hp h
  · exact combineAccumulator_keeps_inv hw (fun _ _ _ => narrow_result_inRange) hp h
  · exact jump_keeps_inv hw hs hpc h

/-- Settles O53: a step serves a request, idles, ends the run, skips a cell or executes what the decoder gave, and each
of these keeps the ranges; a cell is fetched at 0..999 only, so no increment passes 1000. -/
theorem stepKeepsRanges : Obligations.StepKeepsRanges := by
  intro s t hs h
  have hc := hs.clearPorts
  rcases step_cases s with ⟨r, -, e⟩ | ⟨-, -, e⟩ | ⟨-, -, -, e⟩ | ⟨-, -, hpc, -, e⟩ | ⟨-, -, hpc, -, e⟩ |
    ⟨-, -, hpc, i, hi, e⟩ <;> rw [e] at h
  · cases h; exact hc.serve r
  · cases h; exact hc
  · cases h; exact hc.endRun .ended
  · cases h; exact (hc.readIR s.regs.pc).skipCell (Nat.le_of_lt_succ hpc)
  · cases h; exact ((hc.readIR s.regs.pc).report _).skipCell (Nat.le_of_lt_succ hpc)
  · exact exec_keeps_inv (decode_instr_wf hi) (hc.readIR s.regs.pc) (Nat.le_of_lt_succ hpc) h

/-- Settles O17, by the entries of the two memories. -/
theorem readsDetermineMemory : Obligations.ReadsDetermineMemory :=
  fun _ _ h1 h2 h => Memory.eq_of_read_eq h1 h2 h

/-! ### What keeps AC -/

theorem storeAccumulator_ac {o : Operand} {s t : State} (h : storeAccumulator o s = .next t) :
    t.regs.ac = s.regs.ac := by
  have hres := resolveAddr_within o (preIncrement s)
  rcases storeAccumulator_next h with ⟨a, s1, hr, -, -, rfl⟩ | ⟨c, s1, hr, rfl⟩
  · exact (hres.of_ok hr).1.ac
  · exact (hres.of_fail hr).1.ac

theorem jump_ac {o : Operand} {s t : State} (h : jump o s = .next t) : t.regs.ac = s.regs.ac := by
  have hres := resolveTarget_within o s
  rcases jump_next h with ⟨a, s1, hr, rfl⟩ | ⟨c, s1, hr, rfl⟩
  · exact (hres.of_ok hr).1.ac
  · exact (hres.of_fail hr).1.ac

/-- Settles O34: NOP and HLT end without a write, STA and JMP go through the resolver, which writes MAR and MDR only. -/
theorem onlyArithmeticAndLoadsWriteAC : Obligations.OnlyArithmeticAndLoadsWriteAC := by
  intro i s t h hop
  rcases exec_cases i s with ⟨-, -, e⟩ | ⟨hcla, -, -⟩ | ⟨hneg, -, -⟩ | ⟨-, -, -, e⟩ |
    ⟨o, -, -, ⟨hlda, -⟩ | ⟨-, e⟩ | ⟨hadd, -⟩ | ⟨hsub, -⟩ | ⟨-, e⟩⟩
  · rw [e] at h; cases h; rfl
  · simp [hcla] at hop
  · simp [hneg] at hop
  · rw [e] at h; cases h; rfl
  · simp [hlda] at hop
  · exact storeAccumulator_ac (e ▸ h)
  · simp [hadd] at hop
  · simp [hsub] at hop
  · exact jump_ac (e ▸ h)

/-! ### What keeps MAR and MDR -/

/-- MAR and MDR are the same in both states. -/
def SameStaging (s t : State) : Prop := t.regs.mar = s.regs.mar ∧ t.regs.mdr = s.regs.mdr

theorem writeResult_sameStaging (r : ArithResult) (s : State) : SameStaging s (writeResult r s) := by
  cases r <;> exact ⟨rfl, rfl⟩

/-- R123: LDA INM reads its value from the field. -/
theorem loadAccumulator_inm_sameStaging {o : Operand} {s t : State} (ho : ∃ d, o = .inm d)
    (h : loadAccumulator o s = .next t) : SameStaging s t := by
  obtain ⟨d, rfl⟩ := ho
  obtain rfl : writeAC (sval d) (preIncrement s) = t := Host.Outcome.next.inj h
  exact ⟨rfl, rfl⟩

/-- R123: ADD INM and SUB INM read their value from the field. -/
theorem combineAccumulator_inm_sameStaging {f : Int → Int → ArithResult} {o : Operand} {s t : State}
    (ho : ∃ d, o = .inm d) (h : combineAccumulator f o s = .next t) : SameStaging s t := by
  obtain ⟨d, rfl⟩ := ho
  obtain rfl : writeResult (f (preIncrement s).regs.ac (sval d)) (preIncrement s) = t := Host.Outcome.next.inj h
  exact writeResult_sameStaging _ (preIncrement s)

/-- R73: STA INM only reports. -/
theorem storeAccumulator_inm_sameStaging {o : Operand} {s t : State} (ho : ∃ d, o = .inm d)
    (h : storeAccumulator o s = .next t) : SameStaging s t := by
  obtain ⟨d, rfl⟩ := ho
  obtain rfl : report .invalidInstruction (preIncrement s) = t := Host.Outcome.next.inj h
  exact ⟨rfl, rfl⟩

/-- R122: the resolver of an address reads memory for a pointer only. -/
theorem resolveAddr_mdr_within {o : Operand} (ho : ∀ p, o ≠ .ind p) (s : State) :
    (resolveAddr o s).Within s (fun _ s1 => s1.regs.mdr = s.regs.mdr) (fun _ s1 => s1.regs.mdr = s.regs.mdr) := by
  cases o with
  | abs p => exact ⟨writeMAR_frame p s, rfl⟩
  | ind p => exact absurd rfl (ho p)
  | inm d => exact ⟨.refl s, rfl⟩
  | rel d =>
    cases ha : relativeAddress d s with
    | some a => rw [resolveAddr_rel ha]; exact ⟨writeMAR_frame a s, rfl⟩
    | none => rw [resolveAddr_rel_out ha]; exact ⟨.refl s, rfl⟩

/-- R163 (D16): STA reads no operand. -/
theorem storeAccumulator_mdr {o : Operand} {s t : State} (ho : ∀ p, o ≠ .ind p)
    (h : storeAccumulator o s = .next t) : t.regs.mdr = s.regs.mdr := by
  have hres := resolveAddr_mdr_within ho (preIncrement s)
  rcases storeAccumulator_next h with ⟨a, s1, hr, -, -, rfl⟩ | ⟨c, s1, hr, rfl⟩
  · exact (hres.of_ok hr).2
  · exact (hres.of_fail hr).2

/-- R127 (D17): a target that is no pointer is found without any micro-step. -/
theorem resolveTarget_same_within {o : Operand} (ho : ∀ p, o ≠ .ind p) (s : State) :
    (resolveTarget o s).Within s (fun _ s1 => s1 = s) (fun _ s1 => s1 = s) := by
  cases o with
  | abs p => exact ⟨.refl s, rfl⟩
  | ind p => exact absurd rfl (ho p)
  | inm d => exact ⟨.refl s, rfl⟩
  | rel d => cases ha : relativeAddress d s <;> simp only [resolveTarget, ha] <;> exact ⟨.refl s, rfl⟩

theorem jump_sameStaging {o : Operand} {s t : State} (ho : ∀ p, o ≠ .ind p) (h : jump o s = .next t) :
    SameStaging s t := by
  have hres := resolveTarget_same_within ho s
  rcases jump_next h with ⟨a, s1, hr, rfl⟩ | ⟨c, s1, hr, rfl⟩
  · obtain ⟨-, rfl⟩ := hres.of_ok hr
    exact ⟨rfl, rfl⟩
  · obtain ⟨-, rfl⟩ := hres.of_fail hr
    exact ⟨rfl, rfl⟩

/-- R26, R27: the two frames of the staging registers, over every instruction. -/
theorem exec_staging {i : Instr} {s t : State} (h : exec i s = .next t) :
    (i.StagesNothing → SameStaging s t) ∧
    (i.opcode = .sta → (∀ p, i.operand ≠ some (.ind p)) → t.regs.mdr = s.regs.mdr) := by
  rcases exec_cases i s with ⟨-, -, e⟩ | ⟨-, -, e⟩ | ⟨-, -, e⟩ | ⟨-, -, -, e⟩ |
    ⟨o, ho, -, ⟨hop, e⟩ | ⟨hop, e⟩ | ⟨hop, e⟩ | ⟨hop, e⟩ | ⟨hop, e⟩⟩ <;> rw [e] at h
  iterate 4 cases h; exact ⟨fun _ => ⟨rfl, rfl⟩, fun _ _ => rfl⟩
  · exact ⟨fun hn => loadAccumulator_inm_sameStaging (hn.immediate ho (by simp [hop])) h, by simp [hop]⟩
  · exact ⟨fun hn => storeAccumulator_inm_sameStaging (hn.immediate ho (by simp [hop])) h,
      fun _ hind => storeAccumulator_mdr (by simpa [ho] using hind) h⟩
  · exact ⟨fun hn => combineAccumulator_inm_sameStaging (hn.immediate ho (by simp [hop])) h, by simp [hop]⟩
  · exact ⟨fun hn => combineAccumulator_inm_sameStaging (hn.immediate ho (by simp [hop])) h, by simp [hop]⟩
  · exact ⟨fun hn => jump_sameStaging (hn.not_indirect ho) h, by simp [hop]⟩

/-- Settles O39, by the frames of the resolver's entry points. -/
theorem stagingRegisterWriters : Obligations.StagingRegisterWriters := by
  intro i s t h
  obtain ⟨hsame, hsta⟩ := exec_staging h
  exact ⟨hsame, fun ⟨hop, hind⟩ => hsta hop hind⟩

/-! ### Power-on and the start of a run -/

@[simp] theorem reset_read (a : Nat) : State.reset.mem.read a = .empty := rfl

/-- Settles O1: every field is the one `State.reset` writes down, and the form of 0 is computed. -/
theorem powerOnState : Obligations.PowerOnState := by
  have hzero : formatSigned 0 = .chars '+' '0' '0' '0' '0' '0' := by decide
  exact ⟨reset_read, rfl, rfl, rfl, hzero, rfl, rfl, rfl, rfl, rfl, rfl, rfl, rfl⟩

/-- Log 4: a step with a request serves it. -/
theorem step_of_request {s : State} {r : HostRequest} (h : s.request = some r) :
    step s = .next (serve r (clearPorts s)) := by
  simp [step, machineStep, h]

theorem serve_run_of_not_running {s : State} (h : s.rs ≠ .running) : serve .run s = startRun s := by
  simp [serve, whileIdle, h]

/-- Settles O46: the step serves the request, and no run is in the way of it. -/
theorem runStarts : Obligations.RunStarts := by
  intro s hreq hrs
  have hrs' : (clearPorts s).rs ≠ .running := hrs
  rw [step_of_request hreq, serve_run_of_not_running hrs']
  rfl

/-- Settles O52: the registers are 0 or not written yet, and memory has no entry. -/
theorem resetInRange : Obligations.ResetInRange where
  pc_le := Nat.zero_le _
  pcPrev_le := Nat.zero_le _
  ac_inRange := Nat.zero_le _
  mar_le := fun _ h => by cases h
  mem_wf := ⟨.nil, fun _ h => by cases h⟩

/-- Settles O57: an `Empty` cell is skipped, and no cell of power-on holds anything else. -/
theorem resetGated : Obligations.ResetGated where
  mem_gated a := by rw [reset_read]; decide
  cl_gated r h := by cases h

end Machine

end Sys2Proof
end

section
/-! SUPPORT. Which cell an instruction writes and with what, that an instruction of a state in range answers a next
state, and the proofs of the statements about memory (20_memory.md). -/

namespace Sys2Proof.Machine

/-! ### What an instruction writes to memory -/

theorem formatSigned_ne_empty (n : Int) : formatSigned n ≠ .empty := by simp [formatSigned]

/-- R46, R163: IR and the request stay, and memory stays or gets one write, of the form of AC, at the address in MAR. -/
theorem exec_memory {i : Instr} {s t : State} (h : exec i s = .next t) :
    t.regs.ir = s.regs.ir ∧ t.request = s.request ∧
    (t.mem = s.mem ∨ (i.opcode = .sta ∧ ∃ a < 1000, t.regs.mar = some a ∧
      t.mem = s.mem.write a (formatSigned s.regs.ac))) := by
  rcases exec_next_cases h with ⟨-, -, -, s1, hf, hend⟩ | ⟨hsta, s1, hf, hend⟩ | ⟨-, rfl⟩ | ⟨-, s1, hf, hend⟩
  · rcases hend with rfl | ⟨v, rfl⟩ | ⟨c, -, rfl⟩ <;> exact ⟨hf.ir, hf.request, .inl hf.mem⟩
  · rcases hend with ⟨a, ha, hmar, rfl⟩ | ⟨c, -, rfl⟩
    · have hmem : (writeMem a (formatSigned s1.regs.ac) s1).mem = s.mem.write a (formatSigned s.regs.ac) := by
        simp [hf.mem, hf.ac]
      exact ⟨hf.ir, hf.request, .inr ⟨hsta, a, ha, hmar, hmem⟩⟩
    · exact ⟨hf.ir, hf.request, .inl hf.mem⟩
  · exact ⟨rfl, rfl, .inl rfl⟩
  · rcases hend with ⟨a, -, rfl⟩ | ⟨c, -, rfl⟩ <;> exact ⟨hf.ir, hf.request, .inl hf.mem⟩

/-- Settles O35: the one write of `exec_memory`, seen through the laws of reading. -/
theorem onlyStaWritesMemory : Obligations.OnlyStaWritesMemory := by
  intro i s t h
  obtain ⟨hir, hreq, hmem⟩ := exec_memory h
  refine ⟨hir, hreq, hmem.imp_right fun ⟨hsta, a, ha, hmar, hw⟩ => ?_⟩
  have hread : t.mem.read a = formatSigned s.regs.ac := by
    rw [hw, Memory.read_write_of_ne_empty _ _ (formatSigned_ne_empty _)]
  refine ⟨hsta, a, Nat.le_of_lt_succ ha, hmar, hread, ?_, fun b hb => ?_⟩
  · rw [hread, isData_formatSigned]
  · rw [hw, Memory.read_write_ne _ _ hb]

/-- R46, R163: in a step that serves no request, memory stays or gets one write, of the form of AC. -/
theorem step_memory {s t : State} (hreq : s.request = none) (h : step s = .next t) :
    t.mem = s.mem ∨ ∃ a < 1000, t.mem = s.mem.write a (formatSigned s.regs.ac) := by
  rcases step_cases s with ⟨r, hr, -⟩ | ⟨-, -, e⟩ | ⟨-, -, -, e⟩ | ⟨-, -, -, -, e⟩ | ⟨-, -, -, -, e⟩ |
    ⟨-, -, -, i, -, e⟩
  · simp [hreq] at hr
  iterate 4 rw [e] at h; cases h; exact .inl rfl
  · obtain ⟨-, -, hmem⟩ := exec_memory (e ▸ h)
    exact hmem.imp_right fun ⟨_, a, ha, _, hw⟩ => ⟨a, ha, hw⟩

/-- Settles O18: the cell of the one write holds a DataWord, which the decoder skips, and no other cell changes. -/
theorem runCreatesNoInstruction : Obligations.RunCreatesNoInstruction := by
  intro s t a i hreq h hi
  rcases step_memory hreq h with hmem | ⟨b, -, hmem⟩ <;> rw [hmem] at hi ⊢
  by_cases hab : a = b
  · subst hab
    rw [Memory.read_write_of_ne_empty _ _ (formatSigned_ne_empty _),
      decode_of_isData (isData_formatSigned _)] at hi
    cases hi
  · exact Memory.read_write_ne _ _ hab

/-! ### No instruction stops the machine -/

/-- R163: a store at an address of the machine, with AC in its range. -/
theorem storeWord_of_inRange {a : Nat} {s : State} (ha : a ≤ 999) (hac : s.regs.ac.natAbs ≤ 99999) :
    storeWord a s = .next (writeMem a (formatSigned s.regs.ac) s) := by
  simp [storeWord, Nat.lt_succ_of_le ha, inRange, hac]

section
variable {o : Operand} (hw : o.wf = true) (s : State)
include hw

theorem loadAccumulator_answers : ∃ t, loadAccumulator o s = .next t := by
  unfold loadAccumulator
  cases hr : resolveValue o (preIncrement s) with
  | ok v s1 => exact ⟨_, rfl⟩
  | fail c s1 => exact ⟨_, rfl⟩
  | fault f => exact absurd hr (resolveValue_ne_fault hw _ f)

theorem combineAccumulator_answers (f : Int → Int → ArithResult) : ∃ t, combineAccumulator f o s = .next t := by
  unfold combineAccumulator
  cases hr : resolveValue o (preIncrement s) with
  | ok v s1 => exact ⟨_, rfl⟩
  | fail c s1 => exact ⟨_, rfl⟩
  | fault e => exact absurd hr (resolveValue_ne_fault hw _ e)

theorem jump_answers : ∃ t, jump o s = .next t := by
  unfold jump
  cases hr : resolveTarget o s with
  | ok a s1 => exact ⟨_, rfl⟩
  | fail c s1 => exact ⟨_, rfl⟩
  | fault f => exact absurd hr (resolveTarget_ne_fault hw _ f)

/-- R44, R101: STA meets neither fault of the model, because its address is resolved within 0..999 and AC stays as it
was. -/
theorem storeAccumulator_answers (hac : s.regs.ac.natAbs ≤ 99999) : ∃ t, storeAccumulator o s = .next t := by
  unfold storeAccumulator
  cases hr : resolveAddr o (preIncrement s) with
  | ok a s1 =>
    obtain ⟨hf, -, ha⟩ := (resolveAddr_within o (preIncrement s)).of_ok hr
    exact ⟨_, storeWord_of_inRange (ha hw) (hf.ac ▸ hac)⟩
  | fail c s1 => exact ⟨_, rfl⟩
  | fault f => exact absurd hr (resolveAddr_ne_fault hw _ f)

end

/-- R44, R217: an instruction that a word can hold answers a next state wherever AC is in its range. -/
theorem exec_answers {i : Instr} {s : State} (hw : i.wf = true) (hac : s.regs.ac.natAbs ≤ 99999) :
    ∃ t, exec i s = .next t := by
  rcases exec_cases i s with ⟨-, -, e⟩ | ⟨-, -, e⟩ | ⟨-, -, e⟩ | ⟨-, -, -, e⟩ |
    ⟨o, -, hwf, ⟨-, e⟩ | ⟨-, e⟩ | ⟨-, e⟩ | ⟨-, e⟩ | ⟨-, e⟩⟩ <;> rw [e]
  iterate 4 exact ⟨_, rfl⟩
  all_goals rw [hwf] at hw
  · exact loadAccumulator_answers hw s
  · exact storeAccumulator_answers hw s hac
  · exact combineAccumulator_answers hw s add
  · exact combineAccumulator_answers hw s subtract
  · exact jump_answers hw s

/-- Settles O54: every step but one that executes answers next at once, and what it executes came from the decoder, so
`exec_answers` applies. -/
theorem stepNeverStops : Obligations.StepNeverStops := by
  intro s hs
  rcases step_cases s with ⟨r, -, e⟩ | ⟨-, -, e⟩ | ⟨-, -, -, e⟩ | ⟨-, -, -, -, e⟩ | ⟨-, -, -, -, e⟩ |
    ⟨-, -, -, i, hi, e⟩ <;> rw [e]
  iterate 5 exact ⟨_, rfl⟩
  exact exec_answers (decode_instr_wf hi) hs.ac_inRange

end Sys2Proof.Machine
end

section
/-! SUPPORT. What the decoder gives for the words of each opcode, what the encoder writes, and the proofs of the
statements about both (30_encoding.md R70 to R74, R79). -/

namespace Sys2Proof

/-! ### Instructions, by their opcode and operand (R67, R131) -/

open Laws.Rebuild in
theorem rebuilds : ∀ i : Instr, Statement i
  | .nop => nop | .cla => cla | .neg => neg | .hlt => hlt
  | .ldaAbs p => ldaAbs p | .ldaInd p => ldaInd p | .ldaInm p => ldaInm p | .ldaRel p => ldaRel p
  | .staAbs p => staAbs p | .staInd p => staInd p | .staInm p => staInm p | .staRel p => staRel p
  | .addAbs p => addAbs p | .addInd p => addInd p | .addInm p => addInm p | .addRel p => addRel p
  | .subAbs p => subAbs p | .subInd p => subInd p | .subInm p => subInm p | .subRel p => subRel p
  | .jmpAbs p => jmpAbs p | .jmpInd p => jmpInd p | .jmpInm p => jmpInm p | .jmpRel p => jmpRel p

theorem Instr.instrs_of_operand_none {i : Instr} (h : i.operand = none) : i.opcode.instrs = .inl i := by
  have hi := rebuilds i
  unfold Laws.Rebuild.Statement at hi
  cases hop : i.opcode.instrs with
  | inl j =>
    obtain ⟨-, rfl⟩ : i.operand = none ∧ j = i := by simpa only [hop] using hi
    rfl
  | inr mk =>
    obtain ⟨o, ho, -⟩ : ∃ o, i.operand = some o ∧ mk o = i := by simpa only [hop] using hi
    simp [h] at ho

theorem Instr.instrs_of_operand_some {i : Instr} {o : Operand} (h : i.operand = some o) :
    ∃ mk, i.opcode.instrs = .inr mk ∧ mk o = i := by
  have hi := rebuilds i
  unfold Laws.Rebuild.Statement at hi
  cases hop : i.opcode.instrs with
  | inl j =>
    obtain ⟨hn, -⟩ : i.operand = none ∧ j = i := by simpa only [hop] using hi
    simp [h] at hn
  | inr mk =>
    obtain ⟨o', ho, hmk⟩ : ∃ o', i.operand = some o' ∧ mk o' = i := by simpa only [hop] using hi
    obtain rfl : o = o' := Option.some.inj (h.symm.trans ho)
    exact ⟨mk, rfl, hmk⟩

/-- R65: the opcodes that take an operand are those of the codes 2, 3, 4, 5 and 7. -/
theorem code_mem_iff_takes_operand (op : Opcode) : op.code ∈ [2, 3, 4, 5, 7] ↔ ∃ mk, op.instrs = .inr mk := by
  cases op <;> simp [Opcode.code, Opcode.instrs]

theorem opcodeOf_eq_none {n : Nat} : opcodeOf n = none ↔ 8 < n := by
  constructor
  · intro h
    by_contra hn
    have hnone : ∀ k ≤ 8, opcodeOf k ≠ none := by decide
    exact hnone n (by omega) h
  · intro h
    by_contra hsome
    obtain ⟨op, hop⟩ := Option.ne_none_iff_exists'.mp hsome
    have := code_of_opcodeOf hop
    have := opcode_code_le op
    omega

/-! ### Six characters that no opcode begins, or that one does -/

/-- R65: two digits with an opcode are the two characters of its code. -/
theorem eq_codeChars {c0 c1 : Char} {op : Opcode} (hd : isDigits [c0, c1] = true)
    (hop : opcodeOf (num [c0, c1]) = some op) : c0 = digitChar (op.code / 10) ∧ c1 = digitChar op.code := by
  rw [code_of_opcodeOf hop]
  obtain ⟨h0, h1⟩ := twoDigits_chars hd
  exact ⟨h0.symm, h1.symm⟩

/-- R64, R70: six characters begin with a sign, or with no code, or with the code of an opcode. -/
theorem first_chars_cases (c0 c1 : Char) :
    isSign c0 = true ∨
    (isSign c0 = false ∧ (isDigits [c0, c1] = false ∨ opcodeOf (num [c0, c1]) = none)) ∨
    ∃ op : Opcode, c0 = digitChar (op.code / 10) ∧ c1 = digitChar op.code := by
  cases hs : isSign c0 with
  | true => exact .inl rfl
  | false =>
    cases hd : isDigits [c0, c1] with
    | false => exact .inr (.inl ⟨rfl, .inl rfl⟩)
    | true =>
      cases hop : opcodeOf (num [c0, c1]) with
      | none => exact .inr (.inl ⟨rfl, .inr rfl⟩)
      | some op => exact .inr (.inr ⟨op, eq_codeChars hd hop⟩)

theorem isDigits_codeChars (op : Opcode) : isDigits [digitChar (op.code / 10), digitChar op.code] = true := by simp

theorem opcodeOf_codeChars (op : Opcode) : opcodeOf (num [digitChar (op.code / 10), digitChar op.code]) = some op := by
  rw [num_codeChars, opcodeOf_code]

/-! ### The decoder, branch by branch -/

/-- R71. -/
theorem decode_of_isSign {c0 : Char} (h : isSign c0 = true) (c1 c2 c3 c4 c5 : Char) :
    decode (.chars c0 c1 c2 c3 c4 c5) = .skipData := by
  simp only [decode, h, if_true]

/-- R72: no opcode has these two first characters. -/
theorem decode_of_no_code {c0 c1 : Char} (hs : isSign c0 = false)
    (h : isDigits [c0, c1] = false ∨ opcodeOf (num [c0, c1]) = none) (c2 c3 c4 c5 : Char) :
    decode (.chars c0 c1 c2 c3 c4 c5) = .skipInvalid := by
  rcases h with h | h <;> simp only [decode, hs, h, Bool.false_eq_true, if_false, ite_self]

/-- R70: the two characters of a code select its opcode. -/
theorem decode_instrWord (op : Opcode) (a p0 p1 p2 : Char) :
    decode (instrWord op a p0 p1 p2) = decodeFields op a p0 p1 p2 := by
  simp only [instrWord, decode, isSign_digitChar, isDigits_codeChars, opcodeOf_codeChars, Bool.false_eq_true, if_false,
    if_true]

/-- R70 (D3). -/
theorem decodeFields_of_operandless {op : Opcode} {i : Instr} (h : op.instrs = .inl i) (a p0 p1 p2 : Char) :
    decodeFields op a p0 p1 p2 = .instr i := by
  simp only [decodeFields, h]

/-- R66, R68, R69: the mode character and the three operand characters of an operand. -/
def Operand.Spelled (o : Operand) (a p0 p1 p2 : Char) : Prop :=
  o.wf = true ∧ o.mode.digit = a ∧ o.chars = (p0, p1, p2)

/-- R66, R68, R69: the operand read from the mode character and the three operand characters. -/
def operandRead (a p0 p1 p2 : Char) : Option Operand := (modeOf a).bind (operandOf · p0 p1 p2)

/-- The reading of the last four characters of a word is the operand they spell (R66, R68, R69). -/
theorem operand_read_iff_spelled {a p0 p1 p2 : Char} {o : Operand} :
    operandRead a p0 p1 p2 = some o ↔ o.Spelled a p0 p1 p2 := by
  constructor
  · intro h
    obtain ⟨m, hm, ho⟩ := Option.bind_eq_some_iff.mp h
    obtain ⟨rfl, hwf, hchars⟩ := operandOf_eq_some ho
    exact ⟨hwf, digit_of_modeOf hm, hchars⟩
  · rintro ⟨hwf, rfl, hchars⟩
    have ho := operandOf_chars hwf
    simp only [hchars] at ho
    rw [operandRead, modeOf_digit, Option.bind_some, ho]

/-- R70: an operand-taking opcode makes its instruction of the operand that is read. -/
theorem decodeFields_of_operandTaking {op : Opcode} {mk : Operand → Instr} (h : op.instrs = .inr mk)
    (a p0 p1 p2 : Char) : decodeFields op a p0 p1 p2 =
      (operandRead a p0 p1 p2).elim .skipInvalid (.instr ∘ mk) := by
  simp only [decodeFields, h, operandRead]
  cases modeOf a with
  | none => rfl
  | some m => cases ho : operandOf m p0 p1 p2 <;> simp [ho]

/-! ### The encoder -/

theorem encode_of_operand_none {i : Instr} (h : i.operand = none) : encode i = instrWord i.opcode '0' '0' '0' '0' := by
  simp only [encode, h]

theorem encode_of_operand_some {i : Instr} {o : Operand} {a p0 p1 p2 : Char} (h : i.operand = some o)
    (ho : o.Spelled a p0 p1 p2) : encode i = instrWord i.opcode a p0 p1 p2 := by
  obtain ⟨-, rfl, hchars⟩ := ho
  simp only [encode, h, hchars]

/-- R79: every operand that a word can hold is spelled by the characters that the encoder gives it. -/
theorem Operand.spelled_chars {o : Operand} (h : o.wf = true) :
    o.Spelled o.mode.digit o.chars.1 o.chars.2.1 o.chars.2.2 := ⟨h, rfl, rfl⟩

/-- R70, R79: the word of an operand-taking instruction, read back. -/
theorem decodeFields_spelled {i : Instr} {o : Operand} {a p0 p1 p2 : Char} (h : i.operand = some o)
    (ho : o.Spelled a p0 p1 p2) : decodeFields i.opcode a p0 p1 p2 = .instr i := by
  obtain ⟨mk, hmk, rfl⟩ := Instr.instrs_of_operand_some h
  rw [decodeFields_of_operandTaking hmk, operand_read_iff_spelled.mpr ho]
  rfl

/-- Settles O4: the code selects the opcode, and the operand read is the one that was spelled. -/
theorem decodeAfterEncode : Obligations.DecodeAfterEncode := by
  intro i hwf
  cases h : i.operand with
  | none =>
    rw [encode_of_operand_none h, decode_instrWord]
    exact decodeFields_of_operandless (Instr.instrs_of_operand_none h) _ _ _ _
  | some o =>
    have ho := Operand.spelled_chars (Instr.wf_of_operand_some h ▸ hwf)
    rw [encode_of_operand_some h ho, decode_instrWord]
    exact decodeFields_spelled h ho

/-- R70 (D3): an instruction is of the opcode it was decoded for, and its operand, where it has one, is spelled by the
word. -/
theorem decodeFields_eq_instr {op : Opcode} {a p0 p1 p2 : Char} {i : Instr}
    (h : decodeFields op a p0 p1 p2 = .instr i) :
    i.opcode = op ∧ (i.operand = none ∨ ∃ o, i.operand = some o ∧ o.Spelled a p0 p1 p2) := by
  cases hop : op.instrs with
  | inl j =>
    rw [decodeFields_of_operandless hop] at h
    cases h
    obtain ⟨hcode, hnone⟩ := opcode_operand_of_inl hop
    exact ⟨hcode, .inl hnone⟩
  | inr mk =>
    rw [decodeFields_of_operandTaking hop] at h
    cases ho : operandRead a p0 p1 p2 with
    | none => simp [ho] at h
    | some o =>
      obtain rfl : mk o = i := by simpa [ho] using h
      obtain ⟨hcode, hsome⟩ := opcode_operand_of_inr hop o
      exact ⟨hcode, .inr ⟨o, hsome, operand_read_iff_spelled.mp ho⟩⟩

/-- Settles O5: a word that decodes to an instruction begins with its opcode's code, and an operand is spelled by the
rest. -/
theorem encodeAfterDecode : Obligations.EncodeAfterDecode := by
  intro c0 c1 c2 c3 c4 c5 i h
  refine ⟨decode_instr_wf h, ?_⟩
  rcases first_chars_cases c0 c1 with hs | ⟨hs, hcode⟩ | ⟨op, rfl, rfl⟩
  · simp [decode_of_isSign hs] at h
  · simp [decode_of_no_code hs hcode] at h
  · obtain ⟨rfl, hnone | ⟨o, hsome, ho⟩⟩ := decodeFields_eq_instr ((decode_instrWord op c2 c3 c4 c5).symm.trans h)
    · exact ⟨fun hne => absurd hnone hne, fun _ => encode_of_operand_none hnone⟩
    · exact ⟨fun _ => encode_of_operand_some hsome ho, fun hnone => by simp [hsome] at hnone⟩

/-! ### The illegal encodings (R72) -/

theorem decodeFields_eq_skipInvalid {op : Opcode} {a p0 p1 p2 : Char} :
    decodeFields op a p0 p1 p2 = .skipInvalid ↔
      op.code ∈ [2, 3, 4, 5, 7] ∧ operandRead a p0 p1 p2 = none := by
  rw [code_mem_iff_takes_operand]
  cases hop : op.instrs with
  | inl i => simp [decodeFields_of_operandless hop]
  | inr mk =>
    rw [decodeFields_of_operandTaking hop]
    cases operandRead a p0 p1 p2 <;> simp

theorem unsignedField_eq_none {p0 p1 p2 : Char} : unsignedField p0 p1 p2 = none ↔ isDigits [p0, p1, p2] = false := by
  unfold unsignedField
  split_ifs with h <;> simp [h]

/-- R69 (D4): neither three digits nor a sign and two digits. -/
theorem signedField_eq_none {p0 p1 p2 : Char} :
    signedField p0 p1 p2 = none ↔
      isDigits [p0, p1, p2] = false ∧ ¬((p0 = '+' ∨ p0 = '-') ∧ isDigits [p1, p2] = true) := by
  unfold signedField
  split_ifs with h3 h2 hp hm <;> simp_all

theorem modeOf_eq_none {a : Char} : modeOf a = none ↔ a ∉ ['1', '2', '3', '4'] := by
  unfold modeOf
  split_ifs <;> simp_all

/-- R72 (D4): the last four characters spell no operand when the mode character is none, or the field is not of the
mode's form. -/
theorem operand_read_eq_none {a p0 p1 p2 : Char} :
    operandRead a p0 p1 p2 = none ↔
      a ∉ ['1', '2', '3', '4'] ∨ (a ∈ ['1', '2'] ∧ isDigits [p0, p1, p2] = false) ∨
      (a ∈ ['3', '4'] ∧ isDigits [p0, p1, p2] = false ∧
        ¬((p0 = '+' ∨ p0 = '-') ∧ isDigits [p1, p2] = true)) := by
  unfold operandRead
  cases hm : modeOf a with
  | none => exact iff_of_true rfl (.inl (modeOf_eq_none.mp hm))
  | some m =>
    obtain rfl := digit_of_modeOf hm
    rw [Option.bind_some]
    cases m
    case abs | ind => simp [operandOf, unsignedField_eq_none, Mode.digit]
    case inm | rel => simp [operandOf, signedField_eq_none, Mode.digit]

/-- Settles O6: a word with a sign or without a code is of one kind whatever follows; after a code, the last four
characters decide. -/
theorem illegalEncodings : Obligations.IllegalEncodings := by
  intro d0 d1 a p0 p1 p2
  rw [← isSign_iff, ← operand_read_eq_none]
  rcases first_chars_cases d0 d1 with hs | ⟨hs, hcode⟩ | ⟨op, rfl, rfl⟩
  · simp [decode_of_isSign hs, hs]
  · simp only [decode_of_no_code hs hcode, hs]
    rw [opcodeOf_eq_none] at hcode
    tauto
  · have hle := opcode_code_le op
    change decode (instrWord op a p0 p1 p2) = .skipInvalid ↔ _
    rw [decode_instrWord, decodeFields_eq_skipInvalid, isDigits_codeChars, num_codeChars, isSign_digitChar]
    simp only [Nat.not_lt.mpr hle, Bool.true_eq_false, Bool.false_eq_true, false_or, not_false_eq_true, true_and]

/-! ### Data words and written-out words -/

/-- Settles O3: the branch of the sign comes first. -/
theorem signedWordsAreData : Obligations.SignedWordsAreData :=
  fun c0 c1 c2 c3 c4 c5 h => decode_of_isSign ((isSign_iff c0).mpr h) c1 c2 c3 c4 c5

/-- Settles O2: each word is what the encoder writes for the instruction. -/
theorem writtenWordsDecode : Obligations.WrittenWordsDecode :=
  ⟨decodeAfterEncode .nop rfl, decodeAfterEncode .cla rfl, decodeAfterEncode (.ldaAbs 3) rfl,
    decodeAfterEncode (.staInd 999) rfl, decodeAfterEncode (.addInm (.minus 99)) rfl,
    decodeAfterEncode (.subRel (.plus 7)) rfl, decodeAfterEncode .neg rfl, decodeAfterEncode (.jmpRel (.bare 3)) rfl,
    decodeAfterEncode .hlt rfl⟩

end Sys2Proof
end

section
/-! SUPPORT. The write gate: which words it passes, and the proofs of the statements about it
(30_encoding.md R75, R76). -/

namespace Sys2Proof

/-! ### The words that the host can write -/

/-- R75, R76: `Empty`, a DataWord, or the word of an instruction. -/
def Word.Storable (w : Word) : Prop :=
  w = .empty ∨ isData w = true ∨ ∃ i : Instr, i.wf = true ∧ encode i = w

theorem encode_storable {i : Instr} (h : i.wf = true) : (encode i).Storable := .inr (.inr ⟨i, h, rfl⟩)

/-- R79: an operand-less opcode before `0000` is the word of its instruction. -/
theorem instrWord_zeros_storable {op : Opcode} {i : Instr} (h : op.instrs = .inl i) :
    (instrWord op '0' '0' '0' '0').Storable := by
  obtain ⟨rfl, hnone⟩ := opcode_operand_of_inl h
  rw [← encode_of_operand_none hnone]
  exact encode_storable (Instr.wf_of_operand_none hnone)

/-- R79: an operand-taking opcode before a spelled operand is the word of its instruction. -/
theorem instrWord_spelled_storable {op : Opcode} {mk : Operand → Instr} {o : Operand} {a p0 p1 p2 : Char}
    (h : op.instrs = .inr mk) (ho : o.Spelled a p0 p1 p2) : (instrWord op a p0 p1 p2).Storable := by
  obtain ⟨rfl, hsome⟩ := opcode_operand_of_inr h o
  rw [← encode_of_operand_some hsome ho]
  obtain ⟨hwf, -⟩ := ho
  exact encode_storable (Instr.wf_of_operand_some hsome ▸ hwf)

theorem Word.Storable.decode_cases {w : Word} (h : w.Storable) :
    decode w = .skipEmpty ∨ (decode w = .skipData ∧ isData w = true) ∨ ∃ i, decode w = .instr i := by
  rcases h with rfl | hd | ⟨i, hwf, rfl⟩
  · exact .inl rfl
  · exact .inr (.inl ⟨Machine.decode_of_isData hd, hd⟩)
  · exact .inr (.inr ⟨i, decodeAfterEncode i hwf⟩)

/-- R76. -/
theorem Word.Storable.decode_ne_skipInvalid {w : Word} (h : w.Storable) : decode w ≠ .skipInvalid := by
  rcases h.decode_cases with e | ⟨e, -⟩ | ⟨i, e⟩ <;> simp [e]

namespace Machine

/-! ### The gate, branch by branch (R75) -/

/-- R83 (D2): the check for a sign refuses nothing that is an operand of its mode. -/
theorem not_signed_of_operandOf {m : Mode} {p0 p1 p2 : Char} {o : Operand} (h : operandOf m p0 p1 p2 = some o) :
    ¬((m = .abs ∨ m = .ind) ∧ isSign p0 = true) := by
  rintro ⟨hm, hs⟩
  have hfield : unsignedField p0 p1 p2 ≠ none := by
    rcases hm with rfl | rfl <;> intro hnone <;> simp [operandOf, hnone] at h
  have hdigit : isDigit p0 = true := by
    have hdigits : isDigits [p0, p1, p2] = true := by simpa [unsignedField_eq_none] using hfield
    rw [isDigits_cons, Bool.and_eq_true] at hdigits
    exact hdigits.1
  simp [not_isSign_of_isDigit hdigit] at hs

/-- The gate's checks on the text of an operand pass exactly the operands that the decoder reads. -/
theorem validateOperand_eq_ok {a p0 p1 p2 : Char} {w w' : Word} :
    validateOperand a p0 p1 p2 w = .ok w' ↔ w = w' ∧ ∃ o : Operand, o.Spelled a p0 p1 p2 := by
  simp only [← operand_read_iff_spelled, operandRead, validateOperand]
  cases modeOf a with
  | none => simp
  | some m =>
    cases ho : operandOf m p0 p1 p2 with
    | none => simp only [ho, Option.bind_some]; split_ifs <;> simp
    | some o => simp only [ho, Option.bind_some, if_neg (not_signed_of_operandOf ho)]; simp

theorem validate_of_isSign {c0 : Char} (h : isSign c0 = true) (c1 c2 c3 c4 c5 : Char) :
    validate [c0, c1, c2, c3, c4, c5] =
      if isDigits [c1, c2, c3, c4, c5] then .ok (.chars c0 c1 c2 c3 c4 c5) else .error .invalidWordFormat := by
  simp only [validate, validateSix, h, if_true]

theorem validate_of_no_code {c0 c1 : Char} (hs : isSign c0 = false)
    (h : isDigits [c0, c1] = false ∨ opcodeOf (num [c0, c1]) = none) (c2 c3 c4 c5 : Char) :
    validate [c0, c1, c2, c3, c4, c5] = .error .invalidWordFormat := by
  rcases h with h | h <;> simp only [validate, validateSix, hs, h, Bool.false_eq_true, if_false, ite_self]

theorem validate_operandless {op : Opcode} {i : Instr} (h : op.instrs = .inl i) (a p0 p1 p2 : Char) :
    validate (instrWord op a p0 p1 p2).text =
      if [a, p0, p1, p2] = ['0', '0', '0', '0'] then .ok (instrWord op a p0 p1 p2) else .error .invalidWordFormat := by
  simp only [instrWord, Word.text, validate, validateSix, isSign_digitChar, isDigits_codeChars, opcodeOf_codeChars, h,
    Bool.false_eq_true, if_false, if_true]

theorem validate_operandTaking {op : Opcode} {mk : Operand → Instr} (h : op.instrs = .inr mk) (a p0 p1 p2 : Char) :
    validate (instrWord op a p0 p1 p2).text = validateOperand a p0 p1 p2 (instrWord op a p0 p1 p2) := by
  simp only [instrWord, Word.text, validate, validateSix, isSign_digitChar, isDigits_codeChars, opcodeOf_codeChars, h,
    Bool.false_eq_true, if_false, if_true]

/-! ### What the gate passes -/

/-- R75 for a text that begins with the code of an opcode. -/
theorem validate_instrWord_ok {op : Opcode} {a p0 p1 p2 : Char} {w : Word}
    (h : validate (instrWord op a p0 p1 p2).text = .ok w) : instrWord op a p0 p1 p2 = w ∧ w.Storable := by
  cases hop : op.instrs with
  | inl i =>
    rw [validate_operandless hop] at h
    split_ifs at h with hzeros
    cases h
    simp only [List.cons.injEq, and_true] at hzeros
    obtain ⟨rfl, rfl, rfl, rfl⟩ := hzeros
    exact ⟨rfl, instrWord_zeros_storable hop⟩
  | inr mk =>
    rw [validate_operandTaking hop] at h
    obtain ⟨rfl, o, ho⟩ := validateOperand_eq_ok.mp h
    exact ⟨rfl, instrWord_spelled_storable hop ho⟩

/-- R75, R76: what the gate passes is its text as a word, and the host can write it. -/
theorem validate_ok {t : Text} {w : Word} (h : validate t = .ok w) : w.text = t ∧ w.Storable := by
  unfold validate at h
  split at h
  · cases h
    exact ⟨rfl, .inl rfl⟩
  · rename_i c0 c1 c2 c3 c4 c5
    change validate [c0, c1, c2, c3, c4, c5] = .ok w at h
    rcases first_chars_cases c0 c1 with hs | ⟨hs, hcode⟩ | ⟨op, rfl, rfl⟩
    · rw [validate_of_isSign hs] at h
      split_ifs at h with hd
      cases h
      exact ⟨rfl, .inr (.inl (by simp only [isData, hs, hd, Bool.and_self]))⟩
    · simp [validate_of_no_code hs hcode] at h
    · obtain ⟨rfl, hw⟩ := validate_instrWord_ok h
      exact ⟨rfl, hw⟩
  · cases h

/-- R75 (D5): a DataWord passes. -/
theorem validate_of_isData {w : Word} (h : isData w = true) : validate w.text = .ok w := by
  cases w with
  | empty => cases h
  | chars c0 c1 c2 c3 c4 c5 =>
    obtain ⟨hs, hd⟩ := Bool.and_eq_true_iff.mp h
    rw [Word.text, validate_of_isSign hs, if_pos hd]

/-- Settles O9: the gate's checks on an instruction's word are those of its own operand. -/
theorem gatePassesEncoded : Obligations.GatePassesEncoded := by
  intro i hwf
  cases h : i.operand with
  | none =>
    rw [encode_of_operand_none h, validate_operandless (Instr.instrs_of_operand_none h), if_pos rfl]
  | some o =>
    have ho := Operand.spelled_chars (Instr.wf_of_operand_some h ▸ hwf)
    obtain ⟨mk, hmk, -⟩ := Instr.instrs_of_operand_some h
    rw [encode_of_operand_some h ho, validate_operandTaking hmk]
    exact validateOperand_eq_ok.mpr ⟨rfl, o, ho⟩

/-- Settles O7. -/
theorem gateReturnsItsText : Obligations.GateReturnsItsText := by
  intro t w h
  obtain ⟨htext, -⟩ := validate_ok h
  exact htext

/-- Settles O8: a DataWord is skipped, and the word of an instruction is read back. -/
theorem gateNeverPassesInvalid : Obligations.GateNeverPassesInvalid := by
  intro t w h
  obtain ⟨-, hw⟩ := validate_ok h
  exact hw.decode_cases

end Machine

end Sys2Proof
end

section
/-! SUPPORT. The assembler on the tokens of a line, its round trip with the disassembler, and the proofs of the
statements about both (30_encoding.md R77 to R86). -/

namespace Sys2Proof.Machine

/-! ### Tokens (R77) -/

/-- R77: a token has a character, and none of its characters is a blank. -/
def IsToken (t : Text) : Prop := t ≠ [] ∧ ∀ c ∈ t, isBlank c = false

theorem isBlank_iff (c : Char) : isBlank c = true ↔ c = ' ' ∨ c = '\t' := by simp [isBlank]

theorem isBlank_of_isDigit {c : Char} (h : isDigit c = true) : isBlank c = false := by
  by_contra hb
  obtain rfl | rfl := (isBlank_iff c).mp (by simpa only [Bool.not_eq_false] using hb) <;> revert h <;> decide

theorem isBlank_of_isSign {c : Char} (h : isSign c = true) : isBlank c = false := by
  obtain rfl | rfl := (isSign_iff c).mp h <;> decide

theorem isToken_opcodeName (op : Opcode) : IsToken (opcodeName op) := by
  cases op <;> simp [IsToken, opcodeName, isBlank]

theorem isToken_modeToken (m : Mode) : IsToken (modeToken m) := by
  cases m <;> simp [IsToken, modeToken, isBlank]

/-- R68, R69: the characters of an operand field are digits and signs. -/
theorem isToken_operand_chars (o : Operand) : IsToken [o.chars.1, o.chars.2.1, o.chars.2.2] := by
  have hdigit (d : Nat) : isBlank (digitChar d) = false := isBlank_of_isDigit (isDigit_digitChar d)
  have hplus : isBlank '+' = false := by decide
  have hminus : isBlank '-' = false := by decide
  have hfield (d : SField) : IsToken [d.chars.1, d.chars.2.1, d.chars.2.2] := by
    cases d <;> simp [IsToken, SField.chars, hdigit, hplus, hminus]
  cases o <;> exact hfield _

theorem isToken_of_isData {w : Word} (h : isData w = true) : IsToken w.text := by
  cases w with
  | empty => cases h
  | chars c0 c1 c2 c3 c4 c5 =>
    obtain ⟨hs, hd⟩ := Bool.and_eq_true_iff.mp h
    refine ⟨by simp [Word.text], fun c hc => ?_⟩
    rcases List.mem_cons.mp hc with rfl | hc
    · exact isBlank_of_isSign hs
    · exact isBlank_of_isDigit (List.all_eq_true.mp hd c hc)

@[simp] theorem tokens_nil : tokens [] = [] := rfl

/-- R77: blanks before the first token are passed over. -/
theorem tokens_blanks_append {b : Text} (hb : b.all isBlank = true) (l : Text) : tokens (b ++ l) = tokens l := by
  induction b with
  | nil => rfl
  | cons c b ih =>
    obtain ⟨hc, hb⟩ := Bool.and_eq_true_iff.mp (List.all_cons ▸ hb)
    simpa [tokens, tokensFrom, hc, flush] using ih hb

theorem tokens_blanks {b : Text} (hb : b.all isBlank = true) : tokens b = [] := by
  simpa using tokens_blanks_append hb []

/-- R77: characters that are no blanks are collected. -/
theorem tokensFrom_append {t : Text} (ht : ∀ c ∈ t, isBlank c = false) (cur l : Text) :
    tokensFrom cur (t ++ l) = tokensFrom (cur ++ t) l := by
  induction t generalizing cur with
  | nil => simp
  | cons c t ih =>
    obtain ⟨hc, ht⟩ := List.forall_mem_cons.mp ht
    simp [tokensFrom, hc, ih ht]

/-- R77: a token ends at a blank or at the end of the line. -/
theorem tokens_token_append {t b l : Text} (ht : IsToken t) (hb : b.all isBlank = true) (hsep : b ≠ [] ∨ l = []) :
    tokens (t ++ (b ++ l)) = t :: tokens l := by
  obtain ⟨hne, hchars⟩ := ht
  have hflush : flush t = [t] := if_neg hne
  rw [tokens, tokensFrom_append hchars, List.nil_append]
  cases b with
  | nil =>
    obtain rfl : l = [] := hsep.resolve_left (fun h => h rfl)
    exact hflush
  | cons c b =>
    obtain ⟨hc, hb⟩ := Bool.and_eq_true_iff.mp (List.all_cons ▸ hb)
    rw [List.cons_append, tokensFrom, if_pos hc, hflush]
    exact congrArg _ (tokens_blanks_append hb l)

/-- R77: the last token of a line. -/
theorem tokens_token_blanks {t b : Text} (ht : IsToken t) (hb : b.all isBlank = true) : tokens (t ++ b) = [t] := by
  simpa using tokens_token_append ht hb (.inr (rfl : ([] : Text) = []))

theorem tokens_token {t : Text} (ht : IsToken t) : tokens t = [t] := by
  simpa using tokens_token_blanks (b := []) ht rfl

/-! ### The lookup of mnemonics and modes (R78) -/

theorem opcodeName_upper (op : Opcode) : (opcodeName op).map upperChar = opcodeName op := by cases op <;> decide

theorem opcodeOfToken_of_upper {t : Text} {op : Opcode} (h : t.map upperChar = opcodeName op) :
    opcodeOfToken t = some op := by
  unfold opcodeOfToken
  rw [h]
  cases op <;> decide

theorem opcodeOfToken_eq_some {t : Text} {op : Opcode} (h : opcodeOfToken t = some op) :
    t.map upperChar = opcodeName op := by
  simpa using List.find?_some h

/-- R78: the names of the opcodes have three characters. -/
theorem opcodeOfToken_eq_none {t : Text} (h : t.length ≠ 3) : opcodeOfToken t = none := by
  by_contra hsome
  obtain ⟨op, hop⟩ := Option.ne_none_iff_exists'.mp hsome
  have hname : (opcodeName op).length = 3 := by cases op <;> rfl
  rw [← opcodeOfToken_eq_some hop, List.length_map] at hname
  exact h hname

theorem modeOfToken_modeToken (m : Mode) : modeOfToken (modeToken m) = some m := by cases m <;> decide

/-! ### The assembler, branch by branch (R80) -/

section
variable {t0 : Text} {op : Opcode} (h : opcodeOfToken t0 = some op)
include h

theorem assembleTokens_operandless {i : Instr} (hop : op.instrs = .inl i) (rest : List Text) :
    assembleTokens (t0 :: rest) =
      if rest = [] then .ok (instrWord op '0' '0' '0' '0') else .error .invalidWordFormat := by
  simp only [assembleTokens, h, hop]

theorem assembleTokens_operandTaking {mk : Operand → Instr} (hop : op.instrs = .inr mk) (rest : List Text) :
    assembleTokens (t0 :: rest) = assembleModes op rest := by
  simp only [assembleTokens, h, hop]

end

theorem assembleTokens_no_opcode {t0 : Text} (h : opcodeOfToken t0 = none) (rest : List Text) :
    assembleTokens (t0 :: rest) =
      if t0.length = 6 then (if rest = [] then validate t0 else .error .invalidWordFormat)
      else .error .unknownOpcode := by
  simp only [assembleTokens, h]

/-- Settles O12: the lookup gives the same opcode for both, and the first token is read nowhere else. -/
theorem mnemonicCaseInsensitive : Obligations.MnemonicCaseInsensitive := by
  intro t0 op rest h
  have htoken := opcodeOfToken_of_upper h
  have hname := opcodeOfToken_of_upper (opcodeName_upper op)
  cases hop : op.instrs with
  | inl i => rw [assembleTokens_operandless htoken hop, assembleTokens_operandless hname hop]
  | inr mk => rw [assembleTokens_operandTaking htoken hop, assembleTokens_operandTaking hname hop]

/-- R80: an operand token assembles exactly when it spells an operand of the mode and ends the line. -/
theorem assembleOperand_eq_ok {op : Opcode} {m : Mode} {p0 p1 p2 : Char} {more : List Text} {w : Word} :
    assembleOperand op m p0 p1 p2 more = .ok w ↔
      more = [] ∧ instrWord op m.digit p0 p1 p2 = w ∧ ∃ o : Operand, o.Spelled m.digit p0 p1 p2 := by
  simp only [← operand_read_iff_spelled, operandRead, modeOf_digit, Option.bind_some, assembleOperand]
  cases ho : operandOf m p0 p1 p2 with
  | none => split_ifs <;> simp
  | some o => simp only [if_neg (not_signed_of_operandOf ho)]; split_ifs with hm <;> simp [hm]

/-! ### The line of an instruction -/

theorem assembleTokens_encode_operandless {i : Instr} (h : i.operand = none) :
    assembleTokens [opcodeName i.opcode] = .ok (encode i) := by
  rw [assembleTokens_operandless (opcodeOfToken_of_upper (opcodeName_upper _)) (Instr.instrs_of_operand_none h),
    if_pos rfl, encode_of_operand_none h]

theorem assembleTokens_encode_operandTaking {i : Instr} {o : Operand} (hwf : i.wf = true) (h : i.operand = some o) :
    assembleTokens [opcodeName i.opcode, modeToken o.mode, [o.chars.1, o.chars.2.1, o.chars.2.2]] = .ok (encode i) := by
  have ho := Operand.spelled_chars (Instr.wf_of_operand_some h ▸ hwf)
  obtain ⟨mk, hmk, -⟩ := Instr.instrs_of_operand_some h
  rw [assembleTokens_operandTaking (opcodeOfToken_of_upper (opcodeName_upper _)) hmk]
  simp only [assembleModes, modeOfToken_modeToken]
  exact assembleOperand_eq_ok.mpr ⟨rfl, (encode_of_operand_some h ho).symm, o, ho⟩

/-- Settles O11: the blanks only separate the tokens, and the tokens assemble to the word. -/
theorem assembleInstructionLine : Obligations.AssembleInstructionLine := by
  refine ⟨fun b hb => ?_, fun i b0 b1 hwf h hb0 hb1 => ?_, fun i o b0 b1 b2 b3 hwf h hb0 hb1 hb2 hb3 hne1 hne2 => ?_⟩
  · rw [assemble, tokens_blanks hb]
    rfl
  · have htokens : tokens (b0 ++ opcodeName i.opcode ++ b1) = [opcodeName i.opcode] := by
      rw [List.append_assoc, tokens_blanks_append hb0, tokens_token_blanks (isToken_opcodeName _) hb1]
    rw [assemble, htokens, assembleTokens_encode_operandless h]
  · rw [assemble]
    simp only [List.append_assoc]
    rw [tokens_blanks_append hb0, tokens_token_append (isToken_opcodeName _) hb1 (.inl hne1),
      tokens_token_append (isToken_modeToken _) hb2 (.inl hne2), tokens_token_blanks (isToken_operand_chars o) hb3,
      assembleTokens_encode_operandTaking hwf h]

/-! ### The disassembler (R85, R86) -/

theorem display_of_decode_instr {w : Word} {i : Instr} (h : decode w = .instr i) : display w = displayInstr i := by
  simp only [display, h]

theorem display_of_isData {w : Word} (h : isData w = true) : display w = w.text := by
  simp only [display, decode_of_isData h]

theorem length_text_of_isData {w : Word} (h : isData w = true) : w.text.length = 6 := by
  cases w with
  | empty => cases h
  | chars => rfl

/-- R86: the rendering of an instruction is one of its lines. -/
theorem assemble_displayInstr {i : Instr} (hwf : i.wf = true) : assemble (displayInstr i) = .ok (encode i) := by
  obtain ⟨-, hless, htaking⟩ := assembleInstructionLine
  cases h : i.operand with
  | none => simpa [displayInstr, h] using hless i [] [] hwf h rfl rfl
  | some o => simpa [displayInstr, h] using htaking i o [] [' '] [' '] [] hwf h rfl rfl rfl rfl (by simp) (by simp)

/-- R84: a DataWord is a line that the gate passes. -/
theorem assemble_of_isData {w : Word} (h : isData w = true) : assemble w.text = .ok w := by
  have hlength := length_text_of_isData h
  rw [assemble, tokens_token (isToken_of_isData h), assembleTokens_no_opcode (opcodeOfToken_eq_none (by omega)),
    if_pos hlength, if_pos rfl, validate_of_isData h]

/-- R86: each kind of word that the host can write is rendered as a line that assembles to it. -/
theorem assemble_display {w : Word} (h : w.Storable) : assemble (display w) = .ok w := by
  rcases h with rfl | hd | ⟨i, hwf, rfl⟩
  · rfl
  · rw [display_of_isData hd, assemble_of_isData hd]
  · rw [display_of_decode_instr (decodeAfterEncode i hwf), assemble_displayInstr hwf]

/-- Settles O10. -/
theorem assembleAfterDisplay : Obligations.AssembleAfterDisplay := by
  intro t w h
  obtain ⟨-, hw⟩ := validate_ok h
  exact assemble_display hw

/-! ### What the assembler gives -/

theorem assembleModes_ok {op : Opcode} {mk : Operand → Instr} {rest : List Text} {w : Word} (hop : op.instrs = .inr mk)
    (h : assembleModes op rest = .ok w) : w.Storable := by
  unfold assembleModes at h
  split at h
  · cases h
  · split at h
    · cases h
    · split at h
      · obtain ⟨-, rfl, o, ho⟩ := assembleOperand_eq_ok.mp h
        exact instrWord_spelled_storable hop ho
      · cases h

/-- R76, R79, R84: the assembler gives no other words than the gate passes. -/
theorem assemble_ok {t : Text} {w : Word} (h : assemble t = .ok w) : w.Storable := by
  unfold assemble at h
  cases htokens : tokens t with
  | nil =>
    obtain rfl : Word.empty = w := by simpa [htokens, assembleTokens] using h
    exact .inl rfl
  | cons t0 rest =>
    rw [htokens] at h
    cases ht0 : opcodeOfToken t0 with
    | none =>
      rw [assembleTokens_no_opcode ht0] at h
      split_ifs at h
      exact (validate_ok h).2
    | some op =>
      cases hop : op.instrs with
      | inl i =>
        rw [assembleTokens_operandless ht0 hop] at h
        split_ifs at h
        cases h
        exact instrWord_zeros_storable hop
      | inr mk => exact assembleModes_ok hop (assembleTokens_operandTaking ht0 hop rest ▸ h)

end Sys2Proof.Machine
end

section
/-! SUPPORT. Which records an instruction appends, why memory never comes to hold an Invalid word, and the proofs of the
statements about both (30_encoding.md R73, R76; 60_exceptions.md R213). -/

namespace Sys2Proof.Machine

/-! ### What the host and the instructions write -/

/-- No cell of the memory holds an Invalid word, and the memory is in its form. -/
def Memory.Valid (m : Memory) : Prop := m.wf ∧ ∀ a, decode (m.read a) ≠ .skipInvalid

theorem Memory.Valid.write {m : Memory} (h : m.Valid) {a : Nat} {w : Word} (ha : a < 1000)
    (hw : decode w ≠ .skipInvalid) : (m.write a w).Valid := by
  obtain ⟨hwf, hcells⟩ := h
  refine ⟨Memory.write_keeps_form hwf ha w, fun b => ?_⟩
  by_cases hb : b = a
  · rw [hb, Memory.read_write_same hwf]
    exact hw
  · rw [Memory.read_write_ne _ _ hb]
    exact hcells b

/-- R76: every word of the host comes from the gate or from the assembler. -/
theorem Memory.Valid.serve {s : State} (h : s.mem.Valid) (r : HostRequest) : (serve r s).mem.Valid :=
  serve_mem h (fun _ _ _ _ hm ha hw => hm.write ha (assemble_ok hw).decode_ne_skipInvalid)
    fun _ _ _ _ hm ha hw => hm.write ha (validate_ok hw).2.decode_ne_skipInvalid

/-- R46, R163: what an instruction stores is a DataWord. -/
theorem exec_keeps_valid {i : Instr} {s t : State} (hm : s.mem.Valid) (h : exec i s = .next t) : t.mem.Valid := by
  obtain ⟨-, -, hmem | ⟨-, a, ha, -, hmem⟩⟩ := exec_memory h <;> rw [hmem]
  · exact hm
  · refine hm.write ha ?_
    rw [decode_of_isData (isData_formatSigned _)]
    simp

/-- R217. -/
theorem report_appends {s s1 : State} {c : Condition} (hcl : s1.cl = s.cl) (hc : c ≠ .invalidWordFormat) :
    ∃ r : CondRecord, r.kind ≠ .invalidWordFormat ∧ (report c s1).cl = s.cl ++ [r] :=
  ⟨recordOf c s1, hc, congrArg (· ++ _) hcl⟩

/-- R213, R217: an instruction appends at most one record, and never InvalidWordFormat. -/
theorem exec_cl {i : Instr} {s t : State} (h : exec i s = .next t) :
    t.cl = s.cl ∨ ∃ r : CondRecord, r.kind ≠ .invalidWordFormat ∧ t.cl = s.cl ++ [r] := by
  rcases exec_next_cases h with ⟨-, -, -, s1, hf, hend⟩ | ⟨-, s1, hf, hend⟩ | ⟨-, rfl⟩ | ⟨-, s1, hf, hend⟩
  · rcases hend with rfl | ⟨v, rfl⟩ | ⟨c, hc, rfl⟩
    · exact .inl hf.cl
    · exact .inl hf.cl
    · exact .inr (report_appends hf.cl hc)
  · rcases hend with ⟨a, -, -, rfl⟩ | ⟨c, hc, rfl⟩
    · exact .inl hf.cl
    · exact .inr (report_appends hf.cl hc)
  · exact .inl rfl
  · rcases hend with ⟨a, -, rfl⟩ | ⟨c, hc, rfl⟩
    · exact .inl hf.cl
    · exact .inr (report_appends hf.cl hc)

/-! ### The gate kept along every step -/

theorem State.Gated.valid {s : State} (h : s.Gated) (hs : s.Inv) : s.mem.Valid := ⟨hs.mem_wf, h.mem_gated⟩

theorem State.Gated.of_same {s t : State} (h : s.Gated) (hmem : t.mem = s.mem) (hcl : t.cl = s.cl) : t.Gated :=
  ⟨hmem ▸ h.mem_gated, hcl ▸ h.cl_gated⟩

/-- R190: a request leaves CL as it is, or empties it (R37). -/
theorem serve_cl (r : HostRequest) (s : State) : (serve r s).cl = s.cl ∨ (serve r s).cl = [] := by
  rcases serve_cases r s with ⟨-, -, e⟩ | ⟨m, rp, e, -⟩ <;> rw [e]
  · exact .inr rfl
  · exact .inl rfl

theorem State.Gated.serve {s : State} (h : s.Gated) (hs : s.Inv) (r : HostRequest) : (serve r s).Gated := by
  obtain ⟨-, hmem⟩ := (h.valid hs).serve r
  refine ⟨hmem, ?_⟩
  rcases serve_cl r s with e | e <;> rw [e]
  · exact h.cl_gated
  · simp

theorem State.Gated.exec {i : Instr} {s t : State} (h : s.Gated) (hs : s.Inv) (he : exec i s = .next t) : t.Gated := by
  obtain ⟨-, hmem⟩ := exec_keeps_valid (h.valid hs) he
  refine ⟨hmem, ?_⟩
  rcases exec_cl he with e | ⟨r, hr, e⟩ <;> rw [e]
  · exact h.cl_gated
  · rintro x hx
    rcases List.mem_append.mp hx with hx | hx
    · exact h.cl_gated x hx
    · rw [List.mem_singleton.mp hx]
      exact hr

/-- Settles O58: the only step that reports InvalidWordFormat fetches an Invalid word, and memory holds none. -/
theorem stepKeepsGate : Obligations.StepKeepsGate := by
  intro s t hs hg h
  have hsc := hs.clearPorts
  have hgc : (clearPorts s).Gated := hg.of_same rfl rfl
  rcases step_cases s with ⟨r, -, e⟩ | ⟨-, -, e⟩ | ⟨-, -, -, e⟩ | ⟨-, -, -, -, e⟩ | ⟨-, -, -, hinvalid, -⟩ |
    ⟨-, -, -, i, -, e⟩
  · cases e ▸ h; exact hgc.serve hsc r
  · cases e ▸ h; exact hgc
  · cases e ▸ h; exact hgc.of_same rfl rfl
  · cases e ▸ h; exact hgc.of_same rfl rfl
  · exact absurd hinvalid (hg.mem_gated _)
  · exact (hgc.of_same rfl rfl : (readIR s.regs.pc (clearPorts s)).Gated).exec (hsc.readIR _) (e ▸ h)

/-! ### The two forms without a meaning of their own (R73) -/

/-- Settles O28: the resolver fails at once, so the report follows the pre-increment of STA, and nothing of JMP. -/
theorem immediateTargetsReport : Obligations.ImmediateTargetsReport :=
  fun _ s => ⟨(wrote_preIncrement s).reports rfl rfl, (Wrote.refl s).reports rfl rfl⟩

end Sys2Proof.Machine
end

section
/-! SUPPORT. That the zero-padded numeral and the value of a numeral undo each other, for numerals of any length, and the
proofs of the statements about the arithmetic unit (40_arithmetic_unit.md). -/

namespace Sys2Proof

/-! ### Numerals of any length (00_scope.md R8) -/

@[simp] theorem length_pad (k m : Nat) : (pad k m).length = k := by
  induction k with
  | zero => rfl
  | succ k ih => simp [pad, ih]

theorem num_pad (k m : Nat) : num (pad k m) = m % 10 ^ k := by
  induction k with
  | zero => rw [pow_zero, Nat.mod_one]; rfl
  | succ k ih => rw [pad, num_cons, dig_digitChar, length_pad, ih, Nat.mod_pow_succ, Nat.mul_comm, Nat.add_comm]

theorem num_lt {s : Text} (h : isDigits s = true) : num s < 10 ^ s.length := by
  induction s with
  | nil => exact Nat.one_pos
  | cons c cs ih =>
    rw [isDigits_cons, Bool.and_eq_true] at h
    obtain ⟨hc, hcs⟩ := h
    calc num (c :: cs) < dig c * 10 ^ cs.length + 10 ^ cs.length := Nat.add_lt_add_left (ih hcs) _
      _ = (dig c + 1) * 10 ^ cs.length := (Nat.succ_mul _ _).symm
      _ ≤ 10 * 10 ^ cs.length := Nat.mul_le_mul_right _ (dig_lt hc)
      _ = 10 ^ (c :: cs).length := (Nat.pow_succ' ..).symm

/-- The last digits of a number determine its numeral. -/
theorem pad_of_mod_eq_num {s : Text} (h : isDigits s = true) {m : Nat} (hm : m % 10 ^ s.length = num s) :
    pad s.length m = s := by
  induction s with
  | nil => rfl
  | cons c cs ih =>
    rw [isDigits_cons, Bool.and_eq_true] at h
    obtain ⟨hc, hcs⟩ := h
    have hlt : num cs < 10 ^ cs.length := num_lt hcs
    rw [List.length_cons, num_cons] at hm
    have htail : m % 10 ^ cs.length = num cs := by
      rw [← Nat.mod_mod_of_dvd m (Nat.pow_dvd_pow 10 cs.length.le_succ), hm, Nat.mul_add_mod', Nat.mod_eq_of_lt hlt]
    have hhead : m / 10 ^ cs.length % 10 = dig c := by
      rw [Nat.mod_pow_succ, htail, Nat.add_comm, Nat.add_right_cancel_iff, Nat.mul_comm] at hm
      exact Nat.eq_of_mul_eq_mul_right (Nat.zero_lt_of_lt hlt) hm
    rw [List.length_cons, pad, digitChar_of_dig hc hhead, ih hcs htail]

theorem pad_num {s : Text} (h : isDigits s = true) : pad s.length (num s) = s :=
  pad_of_mod_eq_num h (Nat.mod_eq_of_lt (num_lt h))

namespace Machine

/-! ### The form of a signed value -/

/-- R101: the sign, then the five digits. -/
theorem formatSigned_text (n : Int) :
    (formatSigned n).text = (if n < 0 then '-' else '+') :: pad 5 n.natAbs := by
  simp [formatSigned, Word.text, pad]

theorem formatSigned_eq_chars_iff {n : Int} {c0 c1 c2 c3 c4 c5 : Char} :
    formatSigned n = .chars c0 c1 c2 c3 c4 c5 ↔
      (if n < 0 then '-' else '+') = c0 ∧ pad 5 n.natAbs = [c1, c2, c3, c4, c5] := by
  simp [formatSigned, pad]

/-- R62: the sign and the digits of a DataWord. -/
theorem sign_and_digits_of_isData {c0 c1 c2 c3 c4 c5 : Char} (h : isData (.chars c0 c1 c2 c3 c4 c5) = true) :
    (c0 = '+' ∨ c0 = '-') ∧ isDigits [c1, c2, c3, c4, c5] = true := by
  rwa [isData, Bool.and_eq_true, isSign_iff] at h

/-- R63: the value of a word is that of its digits, under the sign. -/
theorem dataValue_of_text {w : Word} {sign : Char} {digits : Text} (h : w.text = sign :: digits) :
    dataValue w = (if sign = '-' then -1 else 1) * (num digits : Int) := by
  cases w with
  | empty => cases h
  | chars c0 c1 c2 c3 c4 c5 => cases h; rfl

/-- R102: the form of a value in range has that value. -/
theorem dataValue_formatSigned {n : Int} (h : n.natAbs ≤ 99999) : dataValue (formatSigned n) = n := by
  have hnum : num (pad 5 n.natAbs) = n.natAbs := by rw [num_pad]; exact Nat.mod_eq_of_lt (by omega)
  rw [dataValue_of_text (formatSigned_text n), hnum]
  by_cases hn : n < 0
  · simp only [hn, if_true]; omega
  · simp only [hn, if_false, show ('+' : Char) ≠ '-' by decide]; omega

/-- R102 (D9): only the form of negative zero loses its sign. -/
theorem formatSigned_dataValue {w : Word} (h : isData w = true) (hne : w ≠ .chars '-' '0' '0' '0' '0' '0') :
    formatSigned (dataValue w) = w := by
  cases w with
  | empty => cases h
  | chars c0 c1 c2 c3 c4 c5 =>
    obtain ⟨hsign, hdigits⟩ := sign_and_digits_of_isData h
    have hpad : pad 5 (num [c1, c2, c3, c4, c5]) = [c1, c2, c3, c4, c5] := pad_num hdigits
    rw [formatSigned_eq_chars_iff, dataValue_of_text rfl]
    rcases hsign with rfl | rfl
    · simp [hpad]
    · have hpos : 0 < num [c1, c2, c3, c4, c5] := by
        refine Nat.pos_of_ne_zero fun hzero => hne ?_
        rw [hzero] at hpad
        cases hpad
        rfl
      simp [hpad, hpos]

/-- Settles O13: a DataWord and the form of its value have the same digits, and the same sign unless the word is
`-00000`. -/
theorem formatSignedParses : Obligations.FormatSignedParses :=
  ⟨fun n hn => ⟨formatSigned_text n, isData_formatSigned n, dataValue_formatSigned hn⟩,
    fun _ => formatSigned_dataValue, by decide⟩

/-! ### Exact results, or Overflow (R105) -/

theorem inRange_iff (r : Int) : inRange r = true ↔ r.natAbs ≤ 99999 := by simp [inRange]

theorem narrow_of_inRange {r : Int} (h : r.natAbs ≤ 99999) : narrow r = .result r := if_pos ((inRange_iff r).mpr h)

theorem narrow_of_out_of_range {r : Int} (h : 99999 < r.natAbs) : narrow r = .overflow :=
  if_neg fun hr => Nat.not_le_of_lt h ((inRange_iff r).mp hr)

/-- Settles O14: the unit narrows the exact sum. -/
theorem addExactOrOverflow : Obligations.AddExactOrOverflow :=
  fun _ _ _ _ => ⟨narrow_of_inRange, narrow_of_out_of_range⟩

/-- Settles O15: the unit narrows the exact difference, the second operand taken from the first. -/
theorem subtractExactOrOverflow : Obligations.SubtractExactOrOverflow :=
  fun _ _ _ _ => ⟨narrow_of_inRange, narrow_of_out_of_range⟩

/-- Settles O16: the range is symmetric, and zero has one form. -/
theorem negateInRange : Obligations.NegateInRange := by
  intro a ha
  refine ⟨rfl, ?_, ?_⟩
  · rw [inRange_iff, negate, Int.natAbs_neg]
    exact ha
  · rintro rfl
    decide

end Machine

end Sys2Proof
end

section
/-! SUPPORT. What a step without a request is, branch by branch of the run loop, and the proofs of the statements about
the sequencer (42_control_sequencer.md). -/

namespace Sys2Proof.Machine

/-! ### The pre-increment (R146) -/

/-- R120, R146: no resolution after the pre-increment moves PC or PCPrev, nor does what an instruction other than JMP
ends with. -/
theorem exec_preIncrements {i : Instr} {s t : State} (h : exec i s = .next t) (hop : i.opcode ≠ .jmp) :
    t.regs.pc = (preIncrement s).regs.pc ∧ t.regs.pcPrev = (preIncrement s).regs.pcPrev := by
  rcases exec_next_cases h with ⟨-, -, -, s1, hf, hend⟩ | ⟨-, s1, hf, hend⟩ | ⟨-, rfl⟩ | ⟨hjmp, -⟩
  · rcases hend with rfl | ⟨v, rfl⟩ | ⟨c, -, rfl⟩ <;> exact ⟨hf.pc, hf.pcPrev⟩
  · rcases hend with ⟨a, -, -, rfl⟩ | ⟨c, -, rfl⟩ <;> exact ⟨hf.pc, hf.pcPrev⟩
  · exact ⟨rfl, rfl⟩
  · exact absurd hjmp hop

/-- Settles O37: PC and PCPrev are those of the pre-increment. -/
theorem preIncrementAlwaysHappens : Obligations.PreIncrementAlwaysHappens :=
  fun _ _ _ h hop => exec_preIncrements h hop

/-! ### The branches of a step without a request -/

section
variable {s : State} (hreq : s.request = none)
include hreq

/-- Log 5: with no request to take, only what the ports hold is cleared. -/
theorem clearPorts_of_no_request : clearPorts s = { s with reply := none, observed := [] } := by
  simp [clearPorts, hreq]

/-- R230, log 6. -/
theorem step_of_not_running (hrs : s.rs ≠ .running) : step s = .next (clearPorts s) := by
  simp [step, machineStep, hreq, advanceCore, hrs]

theorem step_of_running (hrs : s.rs = .running) : step s = runTurn (clearPorts s) := by
  simp [step, machineStep, hreq, advanceCore, hrs]

/-- R141, R148. -/
theorem step_of_end (hrs : s.rs = .running) (hpc : 1000 ≤ s.regs.pc) :
    step s = .next (endRun .ended (clearPorts s)) := by
  rw [step_of_running hreq hrs]
  simp [runTurn, hpc]

/-- R142: the state after the fetch, which is all that a step has done when it comes to the case on `Decode(IR)`. -/
theorem readIR_clearPorts : readIR s.regs.pc (clearPorts s) = { s with
    regs := { s.regs with ir := s.mem.read s.regs.pc }
    reply := none
    observed := [.microStep { s.regs with ir := s.mem.read s.regs.pc } (some s.regs.pc)] } := by
  rw [clearPorts_of_no_request hreq]
  rfl

/-- R142, R151. -/
theorem step_of_fetch (hrs : s.rs = .running) (hpc : s.regs.pc ≤ 999) {d : Decoded}
    (hd : decode (s.mem.read s.regs.pc) = d) : step s = executeDecoded d (readIR s.regs.pc (clearPorts s)) := by
  have hpc' : s.regs.pc < 1000 := by omega
  rw [step_of_running hreq hrs, ← hd]
  simp [runTurn, hpc', cycle]

end

/-- Settles O40. -/
theorem stepRunsDecoded : Obligations.StepRunsDecoded := by
  intro s i hreq hrs hpc hd
  rw [step_of_fetch hreq hrs hpc hd, readIR_clearPorts hreq]
  rfl

/-- Settles O41: both kinds of cell are skipped alike, and the skip of the fetched state is the state written out. -/
theorem stepSkipsData : Obligations.StepSkipsData := by
  intro s hreq hrs hpc hd
  have hskip : step s = .next (skipCell (readIR s.regs.pc (clearPorts s))) := by
    rcases hd with hd | hd <;> exact step_of_fetch hreq hrs hpc hd
  rw [hskip, readIR_clearPorts hreq]
  rfl

/-- Settles O42: the report comes between the fetch and the skip, so the record has PC and PCPrev as before both. -/
theorem stepReportsInvalid : Obligations.StepReportsInvalid := by
  rintro s r hreq hrs hpc hd rfl
  rw [step_of_fetch hreq hrs hpc hd, readIR_clearPorts hreq]
  rfl

/-- Settles O43: the two branches of the run loop that fetch nothing. -/
theorem stepEndsOrIdles : Obligations.StepEndsOrIdles := by
  intro s hreq
  refine ⟨fun hrs hpc => ?_, fun hrs => ?_⟩
  · rw [step_of_end hreq hrs hpc, clearPorts_of_no_request hreq]
    rfl
  · rw [step_of_not_running hreq hrs, clearPorts_of_no_request hreq]

/-! ### What the ports held before (log 5) -/

/-- A step reads the request, and else nothing but the state with its ports cleared. -/
theorem step_eq_of_clearPorts_eq {s t : State} (hreq : s.request = t.request) (h : clearPorts s = clearPorts t) :
    step s = step t := by
  simp only [step, machineStep, hreq, h]

/-- Settles O45: clearing the ports forgets what they held. -/
theorem observerHasNoEffect : Obligations.ObserverHasNoEffect :=
  fun _ _ _ => step_eq_of_clearPorts_eq rfl rfl

end Sys2Proof.Machine
end

section
/-! SUPPORT. What a resolution that succeeds answers and in how many micro-steps, how LDA and STA end after it, and
the proofs of the statements about the data transfer instructions (43_data_transfer.md). -/

namespace Sys2Proof.Machine

/-! ### Resolutions that succeed, with their micro-steps (R249) -/

theorem Wrote.mem {s t : State} {n : Nat} (h : Wrote s t n) : t.mem = s.mem := by
  obtain ⟨obs, ht, -⟩ := h
  rw [ht]

/-- The resolution from `s` answers `v`, and its `n` micro-steps leave the registers at `r` and nothing else changed. -/
def Resolution.OkAfter {α : Type} (res : Resolution α) (s : State) (v : α) (r : RegisterFile) (n : Nat) : Prop :=
  ∃ s1, res = .ok v s1 ∧ Wrote s s1 n ∧ s1.regs = r

/-- R121. -/
theorem resolveAddr_abs_okAfter (p : Nat) (s : State) :
    (resolveAddr (.abs p) s).OkAfter s p { s.regs with mar := some p } 1 :=
  ⟨writeMAR p s, rfl, wrote_writeMAR p s, rfl⟩

/-- R122: MAR holds the pointer's own address first, then the address it gives. -/
theorem resolveAddr_ind_okAfter {p a : Nat} {s : State} (hp : p ≤ 999) (ha : pointerAddress (s.mem.read p) = some a) :
    (resolveAddr (.ind p) s).OkAfter s a { s.regs with mar := some a, mdr := s.mem.read p } 3 :=
  ⟨_, resolveAddr_ind hp ha, ((wrote_writeMAR p s).trans (wrote_readMDR p _)).trans (wrote_writeMAR a _), rfl⟩

/-- R124. -/
theorem resolveAddr_rel_okAfter {d : SField} {a : Nat} {s : State} (ha : relativeAddress d s = some a) :
    (resolveAddr (.rel d) s).OkAfter s a { s.regs with mar := some a } 1 :=
  ⟨_, resolveAddr_rel ha, wrote_writeMAR a s, rfl⟩

/-- R126: the operand read is one micro-step more, of memory as it was before the resolution. -/
theorem resolveMemoryValue_okAfter {o : Operand} {s : State} {a n : Nat} {r : RegisterFile}
    (h : (resolveAddr o s).OkAfter s a r n) (ha : a ≤ 999) (hd : isData (s.mem.read a) = true) :
    (resolveMemoryValue o s).OkAfter s (dataValue (s.mem.read a)) { r with mdr := s.mem.read a } (n + 1) := by
  obtain ⟨s1, hres, hw, rfl⟩ := h
  rw [← hw.mem] at hd ⊢
  exact ⟨readMDR a s1, by simp [resolveMemoryValue, hres, readOperand_of_le ha, hd],
    hw.trans (wrote_readMDR a s1), rfl⟩

/-- R126: ABSOLUTE. -/
theorem resolveValue_abs_okAfter {p : Nat} {s : State} (hp : p ≤ 999) (hd : isData (s.mem.read p) = true) :
    (resolveValue (.abs p) s).OkAfter s (dataValue (s.mem.read p))
      { s.regs with mar := some p, mdr := s.mem.read p } 2 :=
  resolveMemoryValue_okAfter (resolveAddr_abs_okAfter p s) hp hd

/-- R126: INDIRECT. -/
theorem resolveValue_ind_okAfter {p a : Nat} {s : State} (hp : p ≤ 999) (ha : pointerAddress (s.mem.read p) = some a)
    (hd : isData (s.mem.read a) = true) :
    (resolveValue (.ind p) s).OkAfter s (dataValue (s.mem.read a))
      { s.regs with mar := some a, mdr := s.mem.read a } 4 :=
  resolveMemoryValue_okAfter (resolveAddr_ind_okAfter hp ha) (pointerAddress_eq_some.mp ha).2.2 hd

/-- R126: RELATIVE. -/
theorem resolveValue_rel_okAfter {d : SField} {a : Nat} {s : State} (ha : relativeAddress d s = some a)
    (hd : isData (s.mem.read a) = true) :
    (resolveValue (.rel d) s).OkAfter s (dataValue (s.mem.read a))
      { s.regs with mar := some a, mdr := s.mem.read a } 2 :=
  resolveMemoryValue_okAfter (resolveAddr_rel_okAfter ha) (relativeAddress_eq_some.mp ha).2 hd

/-- R123: IMMEDIATE. -/
theorem resolveValue_inm_okAfter (d : SField) (s : State) : (resolveValue (.inm d) s).OkAfter s (sval d) s.regs 0 :=
  ⟨s, rfl, .refl s, rfl⟩

/-- R130: after the pre-increment the base of a relative address is PC + 1. -/
theorem relativeAddress_preIncrement {d : SField} {a : Nat} {s : State} (h : (a : Int) = s.regs.pc + 1 + sval d)
    (ha : a ≤ 999) : relativeAddress d (preIncrement s) = some a :=
  relativeAddress_eq_some.mpr ⟨by simpa [preIncrement] using h, ha⟩

/-! ### NOP and CLA -/

/-- Settles O19: NOP is the pre-increment. -/
theorem nopCompletes : Obligations.NopCompletes := fun s => (wrote_preIncrement s).completes rfl rfl

/-- Settles O20: one write of AC after the pre-increment. -/
theorem claCompletes : Obligations.ClaCompletes :=
  fun s => ((wrote_preIncrement s).trans (wrote_writeAC 0 _)).completes rfl rfl

/-! ### LDA -/

/-- R162: the pre-increment, the resolution, the write of AC. -/
theorem loadAccumulator_completes {o : Operand} {s : State} {v : Int} {r : RegisterFile} {n : Nat}
    (h : (resolveValue o (preIncrement s)).OkAfter (preIncrement s) v r n) :
    CompletesWith (loadAccumulator o s) s { r with ac := v } (2 + n + 1) := by
  obtain ⟨s1, hres, hw, rfl⟩ := h
  exact (((wrote_preIncrement s).trans hw).trans (wrote_writeAC v s1)).completes (by simp [loadAccumulator, hres]) rfl

/-- Settles O23: each mode resolves its operand after the pre-increment, which leaves memory as it is. -/
theorem ldaCompletes : Obligations.LdaCompletes := by
  refine ⟨fun p s hp hd => ?abs, fun p a s hp hd hv ha hda => ?ind, fun d s => ?inm, fun d a s hv ha hda => ?rel⟩
  case abs => exact loadAccumulator_completes (resolveValue_abs_okAfter hp hd)
  case ind =>
    have hptr : pointerAddress (s.mem.read p) = some a := pointerAddress_eq_some.mpr ⟨hd, hv, ha⟩
    exact loadAccumulator_completes (resolveValue_ind_okAfter hp hptr hda)
  case inm => exact loadAccumulator_completes (resolveValue_inm_okAfter d _)
  case rel => exact loadAccumulator_completes (resolveValue_rel_okAfter (relativeAddress_preIncrement hv ha) hda)

/-! ### STA -/

/-- R163: the pre-increment, the resolution, which keeps AC, and the write of memory. -/
theorem storeAccumulator_stores {o : Operand} {s : State} {a n : Nat} {r : RegisterFile}
    (h : (resolveAddr o (preIncrement s)).OkAfter (preIncrement s) a r n) (ha : a ≤ 999)
    (hac : s.regs.ac.natAbs ≤ 99999) :
    StoresWord (storeAccumulator o s) s r a (formatSigned s.regs.ac) (2 + n + 1) := by
  obtain ⟨s1, hres, hw, hr⟩ := h
  have hkeep : s1.regs.ac = s.regs.ac := ((resolveAddr_within o _).of_ok hres).1.ac
  rw [← hkeep] at hac ⊢
  have hout : storeAccumulator o s = .next (writeMem a (formatSigned s1.regs.ac) s1) := by
    simp [storeAccumulator, hres, storeWord_of_inRange ha hac]
  exact ((wrote_preIncrement s).trans hw).stores hout hr (formatSigned_ne_empty _)

/-- Settles O24: the bounds of the address are the resolver's own, but for ABSOLUTE, where the field gives them. -/
theorem staCompletes : Obligations.StaCompletes := by
  refine ⟨fun p s hp hac => ?abs, fun p a s hp hac hptr => ?ind, fun d a s hac hrel => ?rel⟩
  case abs => exact storeAccumulator_stores (resolveAddr_abs_okAfter p _) hp hac
  case ind => exact storeAccumulator_stores (resolveAddr_ind_okAfter hp hptr) (pointerAddress_eq_some.mp hptr).2.2 hac
  case rel => exact storeAccumulator_stores (resolveAddr_rel_okAfter hrel) (relativeAddress_eq_some.mp hrel).2 hac

end Sys2Proof.Machine
end

section
/-! SUPPORT. How ADD and SUB end after a resolution that succeeds, and the proofs of the statements about the arithmetic
instructions (44_arithmetic_instructions.md). -/

namespace Sys2Proof.Machine

/-! ### NEG -/

/-- Settles O21: the pre-increment keeps AC, and one write of AC follows it. -/
theorem negCompletes : Obligations.NegCompletes :=
  fun s => ((wrote_preIncrement s).trans (wrote_writeAC (-s.regs.ac) _)).completes rfl rfl

/-! ### ADD and SUB -/

/-- R170, R171: the pre-increment, the resolution, which keeps AC, and the write of the unit's result. -/
theorem combineAccumulator_completes {f : Int → Int → ArithResult} {o : Operand} {s : State} {v x : Int}
    {r : RegisterFile} {n : Nat} (h : (resolveValue o (preIncrement s)).OkAfter (preIncrement s) v r n)
    (hx : f s.regs.ac v = .result x) : CompletesWith (combineAccumulator f o s) s { r with ac := x } (2 + n + 1) := by
  obtain ⟨s1, hres, hw, rfl⟩ := h
  have hkeep : s1.regs.ac = s.regs.ac := ((resolveValue_within o _).of_ok hres).1.ac
  have hout : combineAccumulator f o s = .next (writeAC x s1) := by
    simp [combineAccumulator, hres, hkeep, hx, writeResult]
  exact (((wrote_preIncrement s).trans hw).trans (wrote_writeAC x s1)).completes hout rfl

/-- R126, R249: the four modes, for an operation `f` of the unit that gives the exact value `g` where that is in range.
ADD and SUB differ in the operation only. -/
theorem combineAccumulator_completes_in_each_mode (f : Int → Int → ArithResult) (g : Int → Int → Int)
    (hf : ∀ a b, (g a b).natAbs ≤ 99999 → f a b = .result (g a b)) :
    (∀ (p : Nat) (s : State), p ≤ 999 → isData (s.mem.read p) = true →
      (g s.regs.ac (dataValue (s.mem.read p))).natAbs ≤ 99999 →
      CompletesWith (combineAccumulator f (.abs p) s) s { s.regs.incremented with
        mar := some p, mdr := s.mem.read p, ac := g s.regs.ac (dataValue (s.mem.read p)) } 5) ∧
    (∀ (p a : Nat) (s : State), p ≤ 999 → isData (s.mem.read p) = true → dataValue (s.mem.read p) = a → a ≤ 999 →
      isData (s.mem.read a) = true → (g s.regs.ac (dataValue (s.mem.read a))).natAbs ≤ 99999 →
      CompletesWith (combineAccumulator f (.ind p) s) s { s.regs.incremented with
        mar := some a, mdr := s.mem.read a, ac := g s.regs.ac (dataValue (s.mem.read a)) } 7) ∧
    (∀ (d : SField) (s : State), (g s.regs.ac (sval d)).natAbs ≤ 99999 →
      CompletesWith (combineAccumulator f (.inm d) s) s { s.regs.incremented with ac := g s.regs.ac (sval d) } 3) ∧
    (∀ (d : SField) (a : Nat) (s : State), (a : Int) = s.regs.pc + 1 + sval d → a ≤ 999 →
      isData (s.mem.read a) = true → (g s.regs.ac (dataValue (s.mem.read a))).natAbs ≤ 99999 →
      CompletesWith (combineAccumulator f (.rel d) s) s { s.regs.incremented with
        mar := some a, mdr := s.mem.read a, ac := g s.regs.ac (dataValue (s.mem.read a)) } 5) := by
  refine ⟨fun p s hp hd hr => ?abs, fun p a s hp hd hv ha hda hr => ?ind, fun d s hr => ?inm,
    fun d a s hv ha hda hr => ?rel⟩
  case abs => exact combineAccumulator_completes (resolveValue_abs_okAfter hp hd) (hf _ _ hr)
  case ind =>
    have hptr : pointerAddress (s.mem.read p) = some a := pointerAddress_eq_some.mpr ⟨hd, hv, ha⟩
    exact combineAccumulator_completes (resolveValue_ind_okAfter hp hptr hda) (hf _ _ hr)
  case inm => exact combineAccumulator_completes (resolveValue_inm_okAfter d _) (hf _ _ hr)
  case rel =>
    have hrel : relativeAddress d (preIncrement s) = some a := relativeAddress_preIncrement hv ha
    exact combineAccumulator_completes (resolveValue_rel_okAfter hrel hda) (hf _ _ hr)

/-- Settles O25: the unit gives the exact sum where it is in range. -/
theorem addCompletes : Obligations.AddCompletes :=
  combineAccumulator_completes_in_each_mode add (· + ·) fun _ _ => narrow_of_inRange

/-- Settles O26: the unit takes the operand value from AC (D25), exactly where the difference is in range. -/
theorem subCompletes : Obligations.SubCompletes :=
  combineAccumulator_completes_in_each_mode subtract (· - ·) fun _ _ => narrow_of_inRange

end Sys2Proof.Machine
end

section
/-! SUPPORT. How JMP ends after a target was resolved, what an instruction does to the sequencer state, and the proofs
of the statements about the control transfer instructions (45_control_transfer.md). -/

namespace Sys2Proof.Machine

/-! ### HLT -/

/-- Settles O22: the end of the run after the pre-increment, which keeps all but the registers and the observer's
notifications. -/
theorem hltCompletes : Obligations.HltCompletes := by
  intro s
  obtain ⟨obs, hpre, hobs⟩ := wrote_preIncrement s
  exact ⟨obs, congrArg (fun s1 => Host.Outcome.next (endRun .halted s1)) hpre, hobs⟩

/-! ### JMP -/

/-- R127: the target of JMP ABS is the field, without a micro-step. -/
theorem resolveTarget_abs_okAfter (p : Nat) (s : State) : (resolveTarget (.abs p) s).OkAfter s p s.regs 0 :=
  ⟨s, rfl, .refl s, rfl⟩

/-- R127 (C4): the target of JMP IND is the pointer's value. -/
theorem resolveTarget_ind_okAfter {p a : Nat} {s : State} (hp : p ≤ 999)
    (ha : pointerAddress (s.mem.read p) = some a) :
    (resolveTarget (.ind p) s).OkAfter s a { s.regs with mar := some a, mdr := s.mem.read p } 3 :=
  resolveAddr_ind_okAfter hp ha

/-- R127, R130: the target of JMP REL is relative to the JMP's own address, without a micro-step. -/
theorem resolveTarget_rel_okAfter {d : SField} {a : Nat} {s : State} (ha : relativeAddress d s = some a) :
    (resolveTarget (.rel d) s).OkAfter s a s.regs 0 :=
  ⟨s, by simp [resolveTarget, ha], .refl s, rfl⟩

/-- R180: the resolution, then the transfer. -/
theorem jump_completes {o : Operand} {s : State} {a n : Nat} {r : RegisterFile}
    (h : (resolveTarget o s).OkAfter s a r n) :
    CompletesWith (jump o s) s { r with pcPrev := r.pc, pc := a } (n + 2) := by
  obtain ⟨s1, hres, hw, rfl⟩ := h
  exact (hw.trans (wrote_transfer a s1)).completes (by simp [jump, hres]) rfl

/-- Settles O27: each mode resolves its target from the state before any increment. -/
theorem jmpCompletes : Obligations.JmpCompletes := by
  refine ⟨fun p s => ?abs, fun p a s hp hd hv ha => ?ind, fun d a s hv ha => ?rel⟩
  case abs => exact jump_completes (resolveTarget_abs_okAfter p s)
  case ind =>
    have hptr : pointerAddress (s.mem.read p) = some a := pointerAddress_eq_some.mpr ⟨hd, hv, ha⟩
    exact jump_completes (resolveTarget_ind_okAfter hp hptr)
  case rel =>
    have hrel : relativeAddress d s = some a := relativeAddress_eq_some.mpr ⟨hv, ha⟩
    exact jump_completes (resolveTarget_rel_okAfter hrel)

/-- Settles O38: the resolver moves neither PC nor PCPrev and records nothing, so what remains is the transfer, to a
target that a well-formed operand bounds, or the report. -/
theorem jmpStaysInMemory : Obligations.JmpStaysInMemory := by
  intro i s t hwf hjmp h
  rcases exec_next_cases h with ⟨hne, -⟩ | ⟨hsta, -⟩ | ⟨rfl, -⟩ | ⟨-, s1, hf, hend⟩
  · exact absurd hjmp hne
  · simp [hjmp] at hsta
  · cases hjmp
  · rcases hend with ⟨a, ha, rfl⟩ | ⟨c, -, rfl⟩
    · exact .inl ⟨ha hwf, hf.pc, hf.cl⟩
    · have hcl : (report c s1).cl = s.cl ++ [recordOf c s1] := congrArg (· ++ [recordOf c s1]) hf.cl
      exact .inr ⟨hf.pc, hf.pcPrev, _, hcl⟩

/-! ### The sequencer state -/

/-- R140, R183, R217: an instruction is HLT and ends the run as HALTED, or it keeps RS and the reply, whatever it writes
or reports. -/
theorem exec_runState {i : Instr} {s t : State} (h : exec i s = .next t) :
    (i.opcode = .hlt ∧ t.rs = .halted) ∨ (i.opcode ≠ .hlt ∧ t.rs = s.rs ∧ t.reply = s.reply) := by
  rcases exec_next_cases h with ⟨-, -, hne, s1, hf, hend⟩ | ⟨hsta, s1, hf, hend⟩ | ⟨rfl, rfl⟩ | ⟨hjmp, s1, hf, hend⟩
  · rcases hend with rfl | ⟨v, rfl⟩ | ⟨c, -, rfl⟩ <;> exact .inr ⟨hne, hf.rs, hf.reply⟩
  · rcases hend with ⟨a, -, -, rfl⟩ | ⟨c, -, rfl⟩ <;> exact .inr ⟨by simp [hsta], hf.rs, hf.reply⟩
  · exact .inl ⟨rfl, rfl⟩
  · rcases hend with ⟨a, -, rfl⟩ | ⟨c, -, rfl⟩ <;> exact .inr ⟨by simp [hjmp], hf.rs, hf.reply⟩

/-- Settles O36: the two cases of `exec_runState` exclude each other. -/
theorem onlyHltChangesRunState : Obligations.OnlyHltChangesRunState := by
  intro i s t h
  rcases exec_runState h with ⟨hhlt, hrs⟩ | ⟨hne, hkept⟩
  · exact ⟨fun hne => absurd hhlt hne, fun _ => hrs⟩
  · exact ⟨fun _ => hkept, fun hhlt => absurd hhlt hne⟩

end Sys2Proof.Machine
end

section
/-! SUPPORT. What a run leaves when it ends, how an instruction moves PC to 1000, and the proofs of the statements about
ended runs (46_host_interface.md R199). -/

namespace Sys2Proof.Machine

/-! ### Which states keep what an ended run leaves -/

theorem State.EndInv.of_same {s t : State} (h : s.EndInv) (hregs : t.regs = s.regs) (hrs : t.rs = s.rs) : t.EndInv where
  pc_terminal := hregs ▸ h.pc_terminal
  ended := hrs ▸ hregs ▸ h.ended
  halted := hrs ▸ hregs ▸ h.halted

/-- R199: a machine whose run has not ended owes R22 only. -/
theorem State.EndInv.of_running {t : State} (hrs : t.rs = .running) (hpc : t.regs.pc = 1000 → t.regs.pcPrev = 999) :
    t.EndInv where
  pc_terminal := hpc
  ended h := by simp [hrs] at h
  halted h := by simp [hrs] at h

/-- R37: `Run()` starts at address 0 in RUNNING; every other request keeps RS and the registers. -/
theorem State.EndInv.serve {s : State} (h : s.EndInv) (r : HostRequest) : (serve r s).EndInv := by
  rcases serve_cases r s with ⟨-, -, e⟩ | ⟨m, rp, e, -⟩ <;> rw [e]
  · exact .of_running rfl (by simp)
  · exact h.of_same rfl rfl

/-- R148: the run loop ends a run at PC 1000 only. -/
theorem State.EndInv.endRun_ended {s : State} (h : s.EndInv) (hpc : s.regs.pc = 1000) : (endRun .ended s).EndInv where
  pc_terminal := h.pc_terminal
  ended _ := ⟨hpc, h.pc_terminal hpc⟩
  halted hrs := by cases hrs

/-- R22: a skip comes to 1000 from 999. -/
theorem skipCell_endInv {s : State} (hrs : s.rs = .running) : (skipCell s).EndInv :=
  .of_running hrs fun hpc => Nat.succ.inj hpc

/-! ### How an instruction comes to PC 1000 -/

/-- R22: an instruction that a word can hold, fetched from 0..999, leaves PC at 1000 by its pre-increment from 999 only:
the target of a JMP is an address. -/
theorem exec_pc_terminal {i : Instr} {s t : State} (hwf : i.wf = true) (hpc : s.regs.pc ≤ 999) (h : exec i s = .next t)
    (ht : t.regs.pc = 1000) : t.regs.pcPrev = 999 := by
  by_cases hjmp : i.opcode = .jmp
  · have : t.regs.pc ≤ 999 := by
      rcases jmpStaysInMemory i s t hwf hjmp h with ⟨ha, -, -⟩ | ⟨hkept, -, -⟩
      · exact ha
      · exact hkept ▸ hpc
    omega
  · obtain ⟨hnew, hprev⟩ := exec_preIncrements h hjmp
    simp only [preIncrement_regs] at hnew hprev
    omega

theorem opcode_eq_hlt {i : Instr} : i.opcode = .hlt ↔ i = .hlt := by cases i <;> simp [Instr.opcode]

/-- R181, R199: of a running machine that has fetched the word of `i`, an instruction that ends the run is an HLT, whose
address the pre-increment leaves in PCPrev. -/
theorem exec_endInv {i : Instr} {s t : State} (hi : decode s.regs.ir = .instr i) (hrs : s.rs = .running)
    (hpc : s.regs.pc ≤ 999) (h : exec i s = .next t) : t.EndInv := by
  have hterminal := exec_pc_terminal (decode_instr_wf hi) hpc h
  rcases exec_runState h with ⟨hhlt, hhalted⟩ | ⟨-, hkept, -⟩
  · obtain ⟨hnew, hprev⟩ := exec_preIncrements h (by simp [hhlt])
    obtain ⟨hir, -, -⟩ := exec_memory h
    refine ⟨hterminal, fun hended => by simp [hhalted] at hended, fun _ => ⟨?_, ?_⟩⟩
    · rw [hnew, hprev]
      rfl
    · rw [hir, hi, opcode_eq_hlt.mp hhlt]
  · exact .of_running (hkept.trans hrs) hterminal

/-- Settles O56: a request and an idle turn keep RS, PC, PCPrev and IR or start a run; a run ends at PC 1000, which R22
ties to PCPrev 999, or at an HLT just fetched. -/
theorem stepKeepsRunEnds : Obligations.StepKeepsRunEnds := by
  intro s t hs he h
  have hec : (clearPorts s).EndInv := he.of_same rfl rfl
  rcases step_cases s with ⟨r, -, e⟩ | ⟨-, -, e⟩ | ⟨-, -, hpc, e⟩ | ⟨-, hrs, -, -, e⟩ | ⟨-, hrs, -, -, e⟩ |
    ⟨-, hrs, hpc, i, hi, e⟩ <;> rw [e] at h
  · cases h; exact hec.serve r
  · cases h; exact hec
  · cases h; exact hec.endRun_ended (Nat.le_antisymm hs.pc_le hpc)
  · cases h; exact skipCell_endInv hrs
  · cases h; exact skipCell_endInv hrs
  · exact exec_endInv (s := readIR s.regs.pc (clearPorts s)) hi hrs (Nat.le_of_lt_succ hpc) h

/-- Settles O55: PC is 0 and RS is IDLE. -/
theorem resetEndsNothing : Obligations.ResetEndsNothing where
  pc_terminal h := by cases h
  ended h := by cases h
  halted h := by cases h

end Sys2Proof.Machine
end

section
/-! SUPPORT. That every micro-step shows the observer the registers it leaves, along the resolver and the instructions,
and the proof of the statement about the observer (46_host_interface.md R197). -/

namespace Sys2Proof.Machine

/-! ### What the observer has seen since the fetch -/

/-- R150, R197: the notifications begin with `first`, and the last micro-step among them shows the registers as they
are. -/
structure State.SeenFrom (first : Notification) (s : State) : Prop where
  begins : ∃ rest, s.observed = first :: rest
  shows : ∃ touched, (s.observed.filter Notification.isMicroStep).getLast? = some (.microStep s.regs touched)

/-- R142: after the fetch the observer has seen the fetch alone. -/
theorem readIR_seen (a : Nat) (s : State) :
    (readIR a (clearPorts s)).SeenFrom (.microStep { s.regs with ir := s.mem.read a } (some a)) :=
  ⟨⟨[], rfl⟩, some a, rfl⟩

namespace State.SeenFrom

variable {first : Notification} {s : State} (h : s.SeenFrom first)
include h

/-- R150: a micro-step shows the registers it leaves, whatever it wrote to them or to memory. -/
theorem notify (regs : RegisterFile) (mem : Memory) (touched : Option Nat) :
    (notify touched { s with regs := regs, mem := mem }).SeenFrom first := by
  obtain ⟨⟨rest, hrest⟩, -⟩ := h
  refine ⟨⟨rest ++ [.microStep regs touched], ?_⟩, touched, ?_⟩
  · simp [hrest]
  · simp [List.filter_append, Notification.isMicroStep]

/-- R217: a report is no micro-step and leaves the registers. -/
theorem report (c : Condition) : (report c s).SeenFrom first := by
  obtain ⟨⟨rest, hrest⟩, touched, hlast⟩ := h
  refine ⟨⟨rest ++ [.condition (recordOf c s)], ?_⟩, touched, ?_⟩
  · simp [hrest]
  · simpa [List.filter_append, Notification.isMicroStep] using hlast

theorem endRun (e : RunState) : (endRun e s).SeenFrom first := ⟨h.begins, h.shows⟩

theorem writePC (v : Nat) : (writePC v s).SeenFrom first := h.notify _ _ _

theorem writePCPrev (v : Nat) : (writePCPrev v s).SeenFrom first := h.notify _ _ _

theorem writeAC (v : Int) : (writeAC v s).SeenFrom first := h.notify _ _ _

theorem writeMAR (v : Nat) : (writeMAR v s).SeenFrom first := h.notify _ _ _

theorem readMDR (a : Nat) : (readMDR a s).SeenFrom first := h.notify _ _ _

theorem writeMem (a : Nat) (w : Word) : (writeMem a w s).SeenFrom first := h.notify _ _ _

theorem preIncrement : (preIncrement s).SeenFrom first := (h.writePCPrev _).writePC _

theorem skipCell : (skipCell s).SeenFrom first := h.preIncrement

theorem transfer (t : Nat) : (transfer t s).SeenFrom first := (h.writePCPrev _).writePC t

theorem writeResult (r : ArithResult) : (writeResult r s).SeenFrom first := by
  rcases writeResult_cases r s with ⟨v, -, e⟩ | ⟨-, e⟩ <;> rw [e]
  · exact h.writeAC v
  · exact h.report .overflow

end State.SeenFrom

/-! ### What the observer has seen after a resolution (R120) -/

/-- The state that a resolution answers with, if it answers with one, meets `P`. -/
def Resolution.EndsIn {α : Type} (P : State → Prop) : Resolution α → Prop
  | .ok _ s1 => P s1
  | .fail _ s1 => P s1
  | .fault _ => True

section
variable {α : Type} {P : State → Prop} {res : Resolution α} {s1 : State} (h : res.EndsIn P)
include h

theorem Resolution.EndsIn.of_ok {v : α} (e : res = .ok v s1) : P s1 := by subst e; exact h

theorem Resolution.EndsIn.of_fail {c : Condition} (e : res = .fail c s1) : P s1 := by subst e; exact h

end

section
variable {first : Notification} {s : State} (h : s.SeenFrom first)
include h

theorem loadMDR_seen (a : Nat) : (loadMDR a s).EndsIn (State.SeenFrom first) := by
  by_cases ha : a < 1000
  · rw [loadMDR_of_lt ha]
    exact h.readMDR a
  · rw [loadMDR_of_ge (Nat.le_of_not_lt ha)]
    trivial

theorem resolveInd_seen (p : Nat) : (resolveInd p s).EndsIn (State.SeenFrom first) := by
  have hload := loadMDR_seen (h.writeMAR p) p
  unfold resolveInd
  split <;> rename_i hr
  · have hs1 := hload.of_ok hr
    split
    · exact hs1.writeMAR _
    · exact hs1
  · exact hload.of_fail hr
  · trivial

theorem resolveAddr_seen (o : Operand) : (resolveAddr o s).EndsIn (State.SeenFrom first) := by
  cases o with
  | abs p => exact h.writeMAR p
  | ind p => exact resolveInd_seen h p
  | inm d => exact h
  | rel d =>
    cases ha : relativeAddress d s with
    | some a => rw [resolveAddr_rel ha]; exact h.writeMAR a
    | none => rw [resolveAddr_rel_out ha]; exact h

theorem readOperand_seen (a : Nat) : (readOperand a s).EndsIn (State.SeenFrom first) := by
  have hload := loadMDR_seen h a
  unfold readOperand
  split <;> rename_i hr
  · split_ifs <;> exact hload.of_ok hr
  · exact hload.of_fail hr
  · trivial

theorem resolveMemoryValue_seen (o : Operand) : (resolveMemoryValue o s).EndsIn (State.SeenFrom first) := by
  have haddr := resolveAddr_seen h o
  unfold resolveMemoryValue
  split <;> rename_i hr
  · exact readOperand_seen (haddr.of_ok hr) _
  · exact haddr.of_fail hr
  · trivial

theorem resolveValue_seen (o : Operand) : (resolveValue o s).EndsIn (State.SeenFrom first) := by
  cases o with
  | inm d => exact h
  | abs p => exact resolveMemoryValue_seen h (.abs p)
  | ind p => exact resolveMemoryValue_seen h (.ind p)
  | rel d => exact resolveMemoryValue_seen h (.rel d)

theorem resolveTarget_seen (o : Operand) : (resolveTarget o s).EndsIn (State.SeenFrom first) := by
  cases o with
  | abs p => exact h
  | ind p => exact resolveInd_seen h p
  | inm d => exact h
  | rel d => cases ha : relativeAddress d s <;> simp only [resolveTarget, ha] <;> exact h

/-! ### What the observer has seen after an instruction -/

variable {o : Operand} {t : State}

theorem loadAccumulator_seen (he : loadAccumulator o s = .next t) : t.SeenFrom first := by
  have hres := resolveValue_seen h.preIncrement o
  rcases loadAccumulator_next he with ⟨v, s1, hr, rfl⟩ | ⟨c, s1, hr, rfl⟩
  · exact (hres.of_ok hr).writeAC v
  · exact (hres.of_fail hr).report c

theorem storeAccumulator_seen (he : storeAccumulator o s = .next t) : t.SeenFrom first := by
  have hres := resolveAddr_seen h.preIncrement o
  rcases storeAccumulator_next he with ⟨a, s1, hr, -, -, rfl⟩ | ⟨c, s1, hr, rfl⟩
  · exact (hres.of_ok hr).writeMem a _
  · exact (hres.of_fail hr).report c

theorem combineAccumulator_seen {f : Int → Int → ArithResult} (he : combineAccumulator f o s = .next t) :
    t.SeenFrom first := by
  have hres := resolveValue_seen h.preIncrement o
  rcases combineAccumulator_next he with ⟨v, s1, hr, rfl⟩ | ⟨c, s1, hr, rfl⟩
  · exact (hres.of_ok hr).writeResult _
  · exact (hres.of_fail hr).report c

theorem jump_seen (he : jump o s = .next t) : t.SeenFrom first := by
  have hres := resolveTarget_seen h o
  rcases jump_next he with ⟨a, s1, hr, rfl⟩ | ⟨c, s1, hr, rfl⟩
  · exact (hres.of_ok hr).transfer a
  · exact (hres.of_fail hr).report c

/-- R150, R197: an instruction writes registers in micro-steps only, so its last one shows how it leaves them. -/
theorem exec_seen {i : Instr} (he : exec i s = .next t) : t.SeenFrom first := by
  rcases exec_cases i s with ⟨-, -, e⟩ | ⟨-, -, e⟩ | ⟨-, -, e⟩ | ⟨-, -, -, e⟩ |
    ⟨o, -, -, ⟨-, e⟩ | ⟨-, e⟩ | ⟨-, e⟩ | ⟨-, e⟩ | ⟨-, e⟩⟩ <;> rw [e] at he
  · cases he; exact h.preIncrement
  · cases he; exact h.preIncrement.writeAC _
  · cases he; exact h.preIncrement.writeAC _
  · cases he; exact h.preIncrement.endRun _
  · exact loadAccumulator_seen h he
  · exact storeAccumulator_seen h he
  · exact combineAccumulator_seen h he
  · exact combineAccumulator_seen h he
  · exact jump_seen h he

/-- R151: a skipped cell shows the observer the skip, before it the report of an Invalid word (R144). -/
theorem executeDecoded_seen {d : Decoded} (he : executeDecoded d s = .next t) : t.SeenFrom first := by
  cases d with
  | skipEmpty => cases he; exact h.skipCell
  | skipData => cases he; exact h.skipCell
  | skipInvalid => cases he; exact (h.report .invalidWordFormat).skipCell
  | instr i => exact exec_seen h he

end

/-- Settles O44: the cycle begins with the fetch on cleared ports, and what follows appends to it. -/
theorem observerSeesFetchAndResult : Obligations.ObserverSeesFetchAndResult := by
  intro s t hreq hrs hpc h
  rw [step_of_fetch hreq hrs hpc rfl] at h
  obtain ⟨hbegins, hshows⟩ := executeDecoded_seen (readIR_seen s.regs.pc s) h
  exact ⟨hbegins, hshows⟩

end Sys2Proof.Machine
end

section
/-! SUPPORT. What each request of the host does, branch by branch, which memory a batch leaves, and the proofs of the
statements about the host port (46_host_interface.md R190 to R196). -/

namespace Sys2Proof.Machine

/-! ### Admission (R190) -/

theorem whileIdle_of_running {s : State} (h : s.rs = .running) (f : State → State) :
    whileIdle f s = answer (.refused .busy) s := if_pos h

theorem whileIdle_of_not_running {s : State} (h : s.rs ≠ .running) (f : State → State) : whileIdle f s = f s := if_neg h

/-- R190: of the five operations only Disassemble is admitted during a run. -/
theorem serve_of_running {s : State} {r : HostRequest} (h : s.rs = .running) (hr : ∀ w, r ≠ .disassemble w) :
    serve r s = answer (.refused .busy) s := by
  cases r with
  | disassemble w => exact absurd rfl (hr w)
  | load start lines => exact whileIdle_of_running h _
  | edit a t => exact whileIdle_of_running h _
  | run => exact whileIdle_of_running h _
  | snapshot => exact whileIdle_of_running h _

/-- Settles O47: a request the port refuses, and the one it always answers, are answered on cleared ports. -/
theorem busyDuringRun : Obligations.BusyDuringRun := by
  refine ⟨fun s r hreq hrs hr => ?_, fun s w hreq => ?_⟩
  · have hbusy : serve r (clearPorts s) = answer (.refused .busy) (clearPorts s) := serve_of_running hrs hr
    rw [step_of_request hreq, hbusy]
    rfl
  · rw [step_of_request hreq]
    rfl

/-- R190: with no run in progress an operation is served in one step, on cleared ports. -/
theorem step_of_admitted {s : State} {r : HostRequest} {f : State → State} (hreq : s.request = some r)
    (hrs : s.rs ≠ .running) (hserve : ∀ s, serve r s = whileIdle f s) : step s = .next (f (clearPorts s)) := by
  have hclear : (clearPorts s).rs ≠ .running := hrs
  rw [step_of_request hreq, hserve, whileIdle_of_not_running hclear]

/-- Settles O48: the port answers with the fields of the state it was asked in. -/
theorem snapshotReportsState : Obligations.SnapshotReportsState := by
  intro s hreq hrs
  rw [step_of_admitted (f := takeSnapshot) hreq hrs fun _ => rfl]
  rfl

/-! ### Edit (R193) -/

/-- R193: the addresses an edit is admitted to. -/
theorem nonneg_and_isAddress_iff (a : Int) : (decide (0 ≤ a) && isAddress a.toNat) = true ↔ 0 ≤ a ∧ a ≤ 999 := by
  simp only [Bool.and_eq_true, decide_eq_true_eq, isAddress_iff]
  omega

theorem editCell_of_no_address {a : Int} (h : a < 0 ∨ 999 < a) (t : Text) (s : State) :
    editCell a t s = answer (.refused .addressOutOfRange) s :=
  if_neg fun ha => by
    have := (nonneg_and_isAddress_iff a).mp ha
    omega

section
variable {a : Int} (h0 : 0 ≤ a) (h1 : a ≤ 999) {t : Text} (s : State)
include h0 h1

theorem editCell_of_refused {k : SyntaxError} (h : validate t = .error k) :
    editCell a t s = answer (.refused (.badText k)) s := by
  simp only [editCell, (nonneg_and_isAddress_iff a).mpr ⟨h0, h1⟩, h, if_true]

theorem editCell_of_passed {w : Word} (h : validate t = .ok w) :
    editCell a t s = answer .edited (hostStore a.toNat w s) := by
  simp only [editCell, (nonneg_and_isAddress_iff a).mpr ⟨h0, h1⟩, h, if_true]

end

/-- Settles O49: the three ways of an edit, the last with the laws of reading after its one write. -/
theorem editStoresOrRefuses : Obligations.EditStoresOrRefuses := by
  intro s a t hreq hrs
  rw [step_of_admitted (f := editCell a t) hreq hrs fun _ => rfl]
  refine ⟨fun ha => ?_, fun k h0 h1 hk => ?_, fun w h0 h1 hwf hw => ?_⟩
  · rw [editCell_of_no_address ha]
    rfl
  · rw [editCell_of_refused h0 h1 _ hk]
    rfl
  · rw [editCell_of_passed h0 h1 _ hw]
    exact ⟨s.mem.write a.toNat w, rfl, Memory.read_write_same hwf _ w, fun b hb => Memory.read_write_ne _ w hb⟩

/-! ### The memory that a batch leaves (R191) -/

/-- The memory after words are written one after another from address `a` on. -/
def Memory.writeFrom (a : Nat) : List Word → Memory → Memory
  | [], m => m
  | w :: ws, m => Memory.writeFrom (a + 1) ws (m.write a w)

theorem Memory.writeFrom_nil (a : Nat) (m : Memory) : m.writeFrom a [] = m := rfl

theorem Memory.writeFrom_cons (a : Nat) (w : Word) (ws : List Word) (m : Memory) :
    m.writeFrom a (w :: ws) = (m.write a w).writeFrom (a + 1) ws := rfl

/-- What address `b` reads after `ws` are written from `a` on: the word that falls on it, or what it read before. -/
theorem Memory.read_writeFrom {m : Memory} (hm : m.wf) {a : Nat} {ws : List Word} (hlen : a + ws.length ≤ 1000)
    (b : Nat) :
    (m.writeFrom a ws).read b = if a ≤ b then (ws[b - a]?).getD (m.read b) else m.read b := by
  induction ws generalizing m a with
  | nil => simp [Memory.writeFrom_nil]
  | cons w ws ih =>
    rw [List.length_cons] at hlen
    have hwf : (m.write a w).wf := Memory.write_keeps_form hm (by omega) w
    rw [Memory.writeFrom_cons, ih hwf (by omega)]
    rcases lt_trichotomy b a with hb | rfl | hb
    · rw [if_neg (by omega), if_neg (by omega), Memory.read_write_ne m w (by omega)]
    · rw [if_neg (by omega), if_pos le_rfl, Memory.read_write_same hm]
      simp
    · have hindex : b - a = (b - (a + 1)) + 1 := by omega
      rw [if_pos (by omega), if_pos (by omega), Memory.read_write_ne m w (by omega), hindex, List.getElem?_cons_succ]

/-! ### Load (R191, R192) -/

section
variable {l : Text} {start i : Nat} (ls : List Text) (s : State)

/-- R191: a line that encodes and has an address is stored. -/
theorem loadLines_stores {w : Word} (hw : assemble l = .ok w) (ha : start + i < 1000) :
    loadLines start i (l :: ls) s = loadLines start (i + 1) ls (hostStore (start + i) w s) := by
  simp [loadLines, hw, ha]

/-- R191: a line that encodes and has no address stops the batch. -/
theorem loadLines_no_address {w : Word} (hw : assemble l = .ok w) (ha : 1000 ≤ start + i) :
    loadLines start i (l :: ls) s = answer (.loadFailed i .addressOutOfRange) s := by
  simp [loadLines, hw, ha]

/-- R192: a line that has an address and does not encode stops the batch. -/
theorem loadLines_bad_text {k : SyntaxError} (hk : assemble l = .error k) (ha : start + i < 1000) :
    loadLines start i (l :: ls) s = answer (.loadFailed i (.badText k)) s := by
  simp [loadLines, loadError, hk, ha]

end

/-- R191: the lines that encode at the head of a batch, all with an address, are stored before the rest is looked at. -/
theorem loadLines_append {start i : Nat} {good : List Text} {ws : List Word} (rest : List Text) (s : State)
    (hok : good.map assemble = ws.map Except.ok) (hlen : start + i + good.length ≤ 1000) :
    loadLines start i (good ++ rest) s =
      loadLines start (i + good.length) rest { s with mem := s.mem.writeFrom (start + i) ws } := by
  induction good generalizing i ws s with
  | nil =>
    obtain rfl : ws = [] := by simpa using hok.symm
    rfl
  | cons l ls ih =>
    obtain ⟨w, ws, rfl⟩ : ∃ w ws', ws = w :: ws' := List.exists_cons_of_ne_nil (by rintro rfl; simp at hok)
    obtain ⟨hw, hok⟩ := List.cons_eq_cons.mp hok
    rw [List.length_cons] at hlen
    have hnext : i + 1 + ls.length = i + (ls.length + 1) := by omega
    rw [List.cons_append, loadLines_stores _ _ hw (by omega), ih _ hok (by omega), hnext]
    rfl

/-- R191: the words that a batch's lines give, one for each line. -/
theorem length_eq_of_assembled {lines : List Text} {ws : List Word} (h : lines.map assemble = ws.map Except.ok) :
    ws.length = lines.length := by
  simpa using (congrArg List.length h).symm

/-- Settles O50: the whole batch is stored, and no line is left. -/
theorem loadStoresBatch : Obligations.LoadStoresBatch := by
  intro s start lines ws hreq hrs hwf hlen hok
  have hload := loadLines_append (i := 0) [] (clearPorts s) hok hlen
  rw [List.append_nil] at hload
  rw [step_of_admitted (f := loadLines start 0 lines) hreq hrs fun _ => rfl, hload]
  exact ⟨s.mem.writeFrom start ws, rfl, Memory.read_writeFrom hwf (length_eq_of_assembled hok ▸ hlen)⟩

/-- Settles O51: the good lines are stored, and then the line that fails is the first of the rest. -/
theorem loadStopsAtFailure : Obligations.LoadStopsAtFailure := by
  intro s start good bad rest ws hreq hrs hwf hlen hok
  have hload := loadLines_append (i := 0) (bad :: rest) (clearPorts s) hok hlen
  have hread := Memory.read_writeFrom hwf (length_eq_of_assembled hok ▸ hlen)
  rw [step_of_admitted (f := loadLines start 0 (good ++ bad :: rest)) hreq hrs fun _ => rfl, hload, Nat.zero_add]
  refine ⟨fun k hk ha => ⟨s.mem.writeFrom start ws, ?_, hread⟩, fun w hw ha => ⟨s.mem.writeFrom start ws, ?_, hread⟩⟩
  · rw [loadLines_bad_text _ _ hk (by omega)]
    rfl
  · rw [loadLines_no_address _ _ hw ha.ge]
    rfl

end Sys2Proof.Machine
end

section
/-! SUPPORT. What a resolution that fails answers and in how many micro-steps, how each instruction reports after it,
and the proofs of the statements about the runtime conditions (60_exceptions.md). -/

namespace Sys2Proof.Machine

/-! ### Resolutions that fail, with their micro-steps (R249) -/

/-- The resolution from `s` fails with `c`, and its `n` micro-steps leave the registers at `r` and nothing else
changed. -/
def Resolution.FailAfter {α : Type} (res : Resolution α) (s : State) (c : Condition) (r : RegisterFile) (n : Nat) :
    Prop :=
  ∃ s1, res = .fail c s1 ∧ Wrote s s1 n ∧ s1.regs = r

/-- R122, R216: MAR and MDR stay as the pointer read leaves them. -/
theorem resolveAddr_ind_failAfter {p : Nat} {s : State} (hp : p ≤ 999) (ha : pointerAddress (s.mem.read p) = none) :
    (resolveAddr (.ind p) s).FailAfter s .badIndirectAddress { s.regs with mar := some p, mdr := s.mem.read p } 2 :=
  ⟨_, resolveAddr_ind_bad hp ha, (wrote_writeMAR p s).trans (wrote_readMDR p _), rfl⟩

/-- R124, R212: the bounds are checked before any micro-step. -/
theorem resolveAddr_rel_failAfter {d : SField} {s : State} (ha : relativeAddress d s = none) :
    (resolveAddr (.rel d) s).FailAfter s .outOfBounds s.regs 0 :=
  ⟨s, resolveAddr_rel_out ha, .refl s, rfl⟩

/-- R127, R212: JMP REL checks the same bounds, and would write no MAR either. -/
theorem resolveTarget_rel_failAfter {d : SField} {s : State} (ha : relativeAddress d s = none) :
    (resolveTarget (.rel d) s).FailAfter s .outOfBounds s.regs 0 :=
  ⟨s, by simp [resolveTarget, ha], .refl s, rfl⟩

/-- R126: no operand is read where the address fails. -/
theorem resolveMemoryValue_failAfter {o : Operand} {s : State} {c : Condition} {r : RegisterFile} {n : Nat}
    (h : (resolveAddr o s).FailAfter s c r n) : (resolveMemoryValue o s).FailAfter s c r n := by
  obtain ⟨s1, hres, hw, hr⟩ := h
  exact ⟨s1, by simp [resolveMemoryValue, hres], hw, hr⟩

/-- R126, R128, R215: a word that is no DataWord is read into MDR all the same. -/
theorem resolveMemoryValue_nonData {o : Operand} {s : State} {a n : Nat} {r : RegisterFile}
    (h : (resolveAddr o s).OkAfter s a r n) (ha : a ≤ 999) (hd : isData (s.mem.read a) = false) :
    (resolveMemoryValue o s).FailAfter s .nonDataOperand { r with mdr := s.mem.read a } (n + 1) := by
  obtain ⟨s1, hres, hw, rfl⟩ := h
  rw [← hw.mem] at hd ⊢
  exact ⟨readMDR a s1, by simp [resolveMemoryValue, hres, readOperand_of_le ha, hd],
    hw.trans (wrote_readMDR a s1), rfl⟩

/-- R130: after the pre-increment the base of the bounds is PC + 1. -/
theorem relativeAddress_preIncrement_eq_none {d : SField} {s : State}
    (h : (s.regs.pc : Int) + 1 + sval d < 0 ∨ 999 < (s.regs.pc : Int) + 1 + sval d) :
    relativeAddress d (preIncrement s) = none :=
  relativeAddress_eq_none.mpr (by simpa using h)

/-! ### How an instruction reports a failed resolution -/

section
variable {o : Operand} {s : State} {c : Condition} {r : RegisterFile} {n : Nat}

/-- R163: STA reports after the pre-increment and the resolution. -/
theorem storeAccumulator_reports (h : (resolveAddr o (preIncrement s)).FailAfter (preIncrement s) c r n) :
    ReportsCondition (storeAccumulator o s) s r c (2 + n) := by
  obtain ⟨s1, hres, hw, hr⟩ := h
  exact ((wrote_preIncrement s).trans hw).reports (by simp [storeAccumulator, hres]) hr

/-- R180: JMP reports after the resolution alone. -/
theorem jump_reports (h : (resolveTarget o s).FailAfter s c r n) : ReportsCondition (jump o s) s r c n := by
  obtain ⟨s1, hres, hw, hr⟩ := h
  exact hw.reports (by simp [jump, hres]) hr

/-- R162, R170, R171: LDA, ADD and SUB resolve their operand alike, and report alike where that fails. -/
theorem valueInstructions_report (h : (resolveValue o (preIncrement s)).FailAfter (preIncrement s) c r n) :
    ReportsCondition (loadAccumulator o s) s r c (2 + n) ∧
    ReportsCondition (combineAccumulator add o s) s r c (2 + n) ∧
    ReportsCondition (combineAccumulator subtract o s) s r c (2 + n) := by
  obtain ⟨s1, hres, hw, hr⟩ := h
  have hwrote : Wrote s s1 (2 + n) := (wrote_preIncrement s).trans hw
  exact ⟨hwrote.reports (by simp [loadAccumulator, hres]) hr, hwrote.reports (by simp [combineAccumulator, hres]) hr,
    hwrote.reports (by simp [combineAccumulator, hres]) hr⟩

/-- R126: LDA, ADD and SUB of a word that is no DataWord, in a mode whose operand is in memory. -/
theorem valueInstructions_report_nonData {a : Nat} (hmode : resolveValue o = resolveMemoryValue o)
    (h : (resolveAddr o (preIncrement s)).OkAfter (preIncrement s) a r n) (ha : a ≤ 999)
    (hd : isData (s.mem.read a) = false) :
    ReportsCondition (loadAccumulator o s) s { r with mdr := s.mem.read a } .nonDataOperand (2 + (n + 1)) ∧
    ReportsCondition (combineAccumulator add o s) s { r with mdr := s.mem.read a } .nonDataOperand (2 + (n + 1)) ∧
    ReportsCondition (combineAccumulator subtract o s) s { r with mdr := s.mem.read a } .nonDataOperand
      (2 + (n + 1)) :=
  valueInstructions_report (hmode ▸ resolveMemoryValue_nonData h ha hd)

/-- R125, R126: where the address fails, LDA, STA, ADD and SUB report alike. -/
theorem memoryInstructions_report (hmode : resolveValue o = resolveMemoryValue o)
    (h : (resolveAddr o (preIncrement s)).FailAfter (preIncrement s) c r n) :
    ReportsCondition (loadAccumulator o s) s r c (2 + n) ∧
    ReportsCondition (storeAccumulator o s) s r c (2 + n) ∧
    ReportsCondition (combineAccumulator add o s) s r c (2 + n) ∧
    ReportsCondition (combineAccumulator subtract o s) s r c (2 + n) := by
  obtain ⟨hlda, hadd, hsub⟩ := valueInstructions_report (hmode ▸ resolveMemoryValue_failAfter h)
  exact ⟨hlda, storeAccumulator_reports h, hadd, hsub⟩

end

/-! ### OutOfBounds, BadIndirectAddress and NonDataOperand -/

/-- Settles O30: the bounds fail from PC + 1 after the pre-increment, and from PC for JMP. -/
theorem outOfBoundsReported : Obligations.OutOfBoundsReported := by
  refine ⟨fun d s h => ?memory, fun d s h => ?jump⟩
  case memory =>
    exact memoryInstructions_report rfl (resolveAddr_rel_failAfter (relativeAddress_preIncrement_eq_none h))
  case jump => exact jump_reports (resolveTarget_rel_failAfter (relativeAddress_eq_none.mpr h))

/-- Settles O32: the pre-increment leaves memory, so all five instructions read the same pointer. -/
theorem badIndirectAddressReported : Obligations.BadIndirectAddressReported := by
  intro p s hp h
  have hptr : pointerAddress (s.mem.read p) = none := pointerAddress_eq_none.mpr h
  obtain ⟨hlda, hsta, hadd, hsub⟩ :=
    memoryInstructions_report rfl (resolveAddr_ind_failAfter hp hptr)
  exact ⟨hlda, hsta, hadd, hsub, jump_reports (resolveAddr_ind_failAfter hp hptr)⟩

/-- Settles O31: each mode gives an address after the pre-increment, and the word read there is the operand. -/
theorem nonDataOperandReported : Obligations.NonDataOperandReported := by
  refine ⟨fun p s hp hd => ?abs, fun p a s hp hd hv ha hda => ?ind, fun d a s hv ha hda => ?rel⟩
  case abs => exact valueInstructions_report_nonData rfl (resolveAddr_abs_okAfter p _) hp hd
  case ind =>
    have hptr : pointerAddress (s.mem.read p) = some a := pointerAddress_eq_some.mpr ⟨hd, hv, ha⟩
    exact valueInstructions_report_nonData rfl (resolveAddr_ind_okAfter hp hptr) ha hda
  case rel =>
    have hrel : relativeAddress d (preIncrement s) = some a := relativeAddress_preIncrement hv ha
    exact valueInstructions_report_nonData rfl (resolveAddr_rel_okAfter hrel) ha hda

/-! ### Overflow (R211) -/

section
variable {o : Operand} {s : State} {v : Int} {r : RegisterFile} {n : Nat}
  (h : (resolveValue o (preIncrement s)).OkAfter (preIncrement s) v r n)
include h

/-- R170, R171: the pre-increment, the resolution, which keeps AC, and the report in place of the write of AC. -/
theorem combineAccumulator_reports_overflow {f : Int → Int → ArithResult} (hf : f s.regs.ac v = .overflow) :
    ReportsCondition (combineAccumulator f o s) s r .overflow (2 + n) := by
  obtain ⟨s1, hres, hw, hr⟩ := h
  have hkeep : s1.regs.ac = s.regs.ac := ((resolveValue_within o _).of_ok hres).1.ac
  exact ((wrote_preIncrement s).trans hw).reports (by simp [combineAccumulator, hres, hkeep, hf, writeResult]) hr

/-- R103, R104, R105 (D25): the unit overflows where the exact sum, or difference, is out of range. -/
theorem addSub_report_overflow :
    (99999 < (s.regs.ac + v).natAbs → ReportsCondition (combineAccumulator add o s) s r .overflow (2 + n)) ∧
    (99999 < (s.regs.ac - v).natAbs → ReportsCondition (combineAccumulator subtract o s) s r .overflow (2 + n)) :=
  ⟨fun hr => combineAccumulator_reports_overflow h (narrow_of_out_of_range hr),
    fun hr => combineAccumulator_reports_overflow h (narrow_of_out_of_range hr)⟩

end

/-- Settles O29: each mode resolves its operand as for a result in range. -/
theorem overflowReported : Obligations.OverflowReported := by
  refine ⟨fun p s hp hd => ?abs, fun p a s hp hd hv ha hda => ?ind, fun d s => ?inm, fun d a s hv ha hda => ?rel⟩
  case abs => exact addSub_report_overflow (resolveValue_abs_okAfter hp hd)
  case ind =>
    have hptr : pointerAddress (s.mem.read p) = some a := pointerAddress_eq_some.mpr ⟨hd, hv, ha⟩
    exact addSub_report_overflow (resolveValue_ind_okAfter hp hptr hda)
  case inm => exact addSub_report_overflow (resolveValue_inm_okAfter d _)
  case rel => exact addSub_report_overflow (resolveValue_rel_okAfter (relativeAddress_preIncrement hv ha) hda)

/-! ### At most one condition in a cycle (R219) -/

/-- From `s` to `t` CL stays, or gains one record, which holds `w` as IR and was shown to the observer. -/
def AppendsAtMostOne (s t : State) (w : Word) : Prop :=
  t.cl = s.cl ∨ ∃ r, t.cl = s.cl ++ [r] ∧ r.ir = w ∧ .condition r ∈ t.observed

/-- R217: a report appends its record, which holds IR, and shows it. -/
theorem report_appendsAtMostOne {s s1 : State} (hcl : s1.cl = s.cl) (hir : s1.regs.ir = s.regs.ir) (c : Condition) :
    AppendsAtMostOne s (report c s1) s.regs.ir :=
  .inr ⟨recordOf c s1, by simp [hcl], by simp [hir], by simp⟩

/-- R143: the skip keeps CL and what the observer was shown. -/
theorem AppendsAtMostOne.skipCell {s t : State} {w : Word} (h : AppendsAtMostOne s t w) :
    AppendsAtMostOne s (skipCell t) w :=
  h.imp_right fun ⟨r, hcl, hir, hshown⟩ => ⟨r, hcl, hir, by simp [hshown]⟩

/-- R217, R219: the resolver records nothing and keeps IR, and an instruction reports at its end or not at all. -/
theorem exec_appendsAtMostOne {i : Instr} {s t : State} (h : exec i s = .next t) : AppendsAtMostOne s t s.regs.ir := by
  rcases exec_next_cases h with ⟨-, -, -, s1, hf, hend⟩ | ⟨-, s1, hf, hend⟩ | ⟨-, rfl⟩ | ⟨-, s1, hf, hend⟩
  · rcases hend with rfl | ⟨v, rfl⟩ | ⟨c, -, rfl⟩
    · exact .inl hf.cl
    · exact .inl hf.cl
    · exact report_appendsAtMostOne hf.cl hf.ir c
  · rcases hend with ⟨a, -, -, rfl⟩ | ⟨c, -, rfl⟩
    · exact .inl hf.cl
    · exact report_appendsAtMostOne hf.cl hf.ir c
  · exact .inl rfl
  · rcases hend with ⟨a, -, rfl⟩ | ⟨c, -, rfl⟩
    · exact .inl hf.cl
    · exact report_appendsAtMostOne hf.cl hf.ir c

/-- Settles O33: the fetch puts the word at PC into IR and keeps CL, and what follows it reports at most once. -/
theorem atMostOneConditionPerCycle : Obligations.AtMostOneConditionPerCycle := by
  intro s t hreq h
  rcases step_cases s with ⟨r, hr, -⟩ | ⟨-, -, e⟩ | ⟨-, -, -, e⟩ | ⟨-, -, -, -, e⟩ | ⟨-, -, -, -, e⟩ |
    ⟨-, -, -, i, -, e⟩
  · simp [hreq] at hr
  iterate 3 cases e ▸ h; exact .inl rfl
  · cases e ▸ h
    exact (report_appendsAtMostOne (s := readIR s.regs.pc (clearPorts s)) rfl rfl _).skipCell
  · exact exec_appendsAtMostOne (e ▸ h)

end Sys2Proof.Machine
end

section
/-! SUPPORT. When the target of a JMP cannot be resolved, that the cycle of such a JMP comes back to it, and the proof
of the statement about its livelock (70_reset_and_hazards.md). -/

namespace Sys2Proof.Machine

/-! ### Cycles that stay in place -/

/-- From `s` to `t` the machine stayed in place, but for `n` more records in CL: only MAR, MDR, IR and what was answered
and shown may have changed. -/
structure StayedInPlace (s t : State) (n : Nat) : Prop where
  request_eq : t.request = s.request
  rs_eq : t.rs = s.rs
  pc_eq : t.regs.pc = s.regs.pc
  pcPrev_eq : t.regs.pcPrev = s.regs.pcPrev
  ac_eq : t.regs.ac = s.regs.ac
  mem_eq : t.mem = s.mem
  cl_length : t.cl.length = s.cl.length + n

namespace StayedInPlace

theorem refl (s : State) : StayedInPlace s s 0 := ⟨rfl, rfl, rfl, rfl, rfl, rfl, rfl⟩

theorem trans {s t u : State} {m n : Nat} (h1 : StayedInPlace s t m) (h2 : StayedInPlace t u n) :
    StayedInPlace s u (m + n) where
  request_eq := h2.request_eq.trans h1.request_eq
  rs_eq := h2.rs_eq.trans h1.rs_eq
  pc_eq := h2.pc_eq.trans h1.pc_eq
  pcPrev_eq := h2.pcPrev_eq.trans h1.pcPrev_eq
  ac_eq := h2.ac_eq.trans h1.ac_eq
  mem_eq := h2.mem_eq.trans h1.mem_eq
  cl_length := by rw [h2.cl_length, h1.cl_length, Nat.add_assoc]

/-- R142: the fetch. -/
theorem fetch {s : State} (hreq : s.request = none) (a : Nat) : StayedInPlace s (readIR a (clearPorts s)) 0 :=
  ⟨hreq.symm, rfl, rfl, rfl, rfl, rfl, rfl⟩

/-- R128, R217: a resolution and the report of its failure. -/
theorem report {s s1 : State} (h : ResolverFrame s s1) (c : Condition) : StayedInPlace s (report c s1) 1 where
  request_eq := h.request
  rs_eq := h.rs
  pc_eq := h.pc
  pcPrev_eq := h.pcPrev
  ac_eq := h.ac
  mem_eq := h.mem
  cl_length := by simp [h.cl]

end StayedInPlace

/-! ### Targets that cannot be resolved (R127) -/

/-- R122, R124, R125: `ResolveTarget` fails on the operand. -/
def TargetFails (s : State) : Operand → Prop
  | .abs _ => False
  | .ind p => pointerAddress (s.mem.read p) = none
  | .inm _ => True
  | .rel d => relativeAddress d s = none

theorem TargetFails.of_stayedInPlace {s t : State} {o : Operand} {n : Nat} (h : TargetFails s o)
    (hst : StayedInPlace s t n) : TargetFails t o := by
  cases o with
  | abs p => exact h
  | ind p => simpa only [TargetFails, hst.mem_eq] using h
  | inm d => trivial
  | rel d => simpa only [TargetFails, relativeAddress, hst.pc_eq] using h

theorem TargetFails.resolveTarget_eq_fail {s : State} {o : Operand} (h : TargetFails s o) (hwf : o.wf = true) :
    ∃ c s1, resolveTarget o s = .fail c s1 := by
  cases o with
  | abs p => exact h.elim
  | ind p =>
    have hp : p ≤ 999 := by simpa [Operand.wf, fitsThreeDigits] using hwf
    exact ⟨_, _, resolveAddr_ind_bad hp h⟩
  | inm d => exact ⟨_, _, rfl⟩
  | rel d =>
    obtain ⟨s1, hres, -⟩ := resolveTarget_rel_failAfter h
    exact ⟨_, s1, hres⟩

/-- R180: a JMP whose target fails reports once and moves nothing. -/
theorem TargetFails.jump_stays {s : State} {o : Operand} (h : TargetFails s o) (hwf : o.wf = true) :
    ∃ t, jump o s = .next t ∧ StayedInPlace s t 1 := by
  obtain ⟨c, s1, hres⟩ := h.resolveTarget_eq_fail hwf
  have hframe : ResolverFrame s s1 := ((resolveTarget_within o s).of_fail hres).1
  exact ⟨report c s1, by simp [jump, hres], .report hframe c⟩

theorem exec_of_jmp {i : Instr} {o : Operand} (hop : i.opcode = .jmp) (ho : i.operand = some o) (s : State) :
    exec i s = jump o s := by
  cases i
  case jmpAbs | jmpInd | jmpInm | jmpRel => cases ho; rfl
  all_goals cases hop

/-! ### The livelock (R246) -/

/-- The next cycle fetches a JMP whose target fails. -/
structure State.AtFailingJmp (s : State) : Prop where
  no_request : s.request = none
  running : s.rs = .running
  pc_le : s.regs.pc ≤ 999
  failing : ∃ i o, decode (s.mem.read s.regs.pc) = .instr i ∧ i.opcode = .jmp ∧ i.operand = some o ∧ TargetFails s o

/-- What makes a JMP fail is kept where the machine stays in place. -/
theorem State.AtFailingJmp.of_stayedInPlace {s t : State} {n : Nat} (h : s.AtFailingJmp)
    (hst : StayedInPlace s t n) : t.AtFailingJmp where
  no_request := hst.request_eq.trans h.no_request
  running := hst.rs_eq.trans h.running
  pc_le := hst.pc_eq ▸ h.pc_le
  failing := by
    obtain ⟨i, o, hd, hop, ho, hfails⟩ := h.failing
    exact ⟨i, o, by rw [hst.mem_eq, hst.pc_eq, hd], hop, ho, hfails.of_stayedInPlace hst⟩

/-- R154, R180: the fetch, then the failing JMP. -/
theorem State.AtFailingJmp.step_stays {s : State} (h : s.AtFailingJmp) :
    ∃ t, step s = .next t ∧ StayedInPlace s t 1 := by
  obtain ⟨i, o, hd, hop, ho, hfails⟩ := h.failing
  have hwf : o.wf = true := Instr.wf_of_operand_some ho ▸ decode_instr_wf hd
  have hfetch := StayedInPlace.fetch h.no_request s.regs.pc
  obtain ⟨t, hjump, hstays⟩ := (hfails.of_stayedInPlace hfetch).jump_stays hwf
  refine ⟨t, ?_, by simpa using hfetch.trans hstays⟩
  calc step s
    _ = exec i (readIR s.regs.pc (clearPorts s)) := step_of_fetch h.no_request h.running h.pc_le hd
    _ = jump o (readIR s.regs.pc (clearPorts s)) := exec_of_jmp hop ho _
    _ = .next t := hjump

theorem run_succ_of_next {M : Host.Core} {s t : M.State} (h : M.step s = .next t) (k : Nat) :
    M.run (k + 1) s = M.run k t := by
  simp only [Host.Core.run, h]

/-- R246: the cycle comes back to the JMP that failed. -/
theorem State.AtFailingJmp.run_stays {s : State} (h : s.AtFailingJmp) (n : Nat) :
    ∃ t, Host.Core.run core n s = .next t ∧ StayedInPlace s t n := by
  induction n generalizing s with
  | zero => exact ⟨s, rfl, .refl s⟩
  | succ k ih =>
    obtain ⟨s1, hstep, hone⟩ := h.step_stays
    obtain ⟨t, hrun, hrest⟩ := ih (h.of_stayedInPlace hone)
    have hrun' : Host.Core.run core (k + 1) s = .next t := (run_succ_of_next (M := core) hstep k).trans hrun
    exact ⟨t, hrun', Nat.add_comm 1 k ▸ hone.trans hrest⟩

/-- Settles O59: each of the three forms is a JMP whose target fails. -/
theorem failedJmpLivelocks : Obligations.FailedJmpLivelocks := by
  intro s i hreq hrs hpc hd hform n
  have hfailing : ∃ o, i.opcode = .jmp ∧ i.operand = some o ∧ TargetFails s o := by
    rcases hform with ⟨d, rfl⟩ | ⟨d, rfl, hout⟩ | ⟨p, rfl, hptr⟩
    · exact ⟨.inm d, rfl, rfl, trivial⟩
    · exact ⟨.rel d, rfl, rfl, relativeAddress_eq_none.mpr hout⟩
    · exact ⟨.ind p, rfl, rfl, pointerAddress_eq_none.mpr hptr⟩
  obtain ⟨o, hop, ho, hfails⟩ := hfailing
  have hat : s.AtFailingJmp := ⟨hreq, hrs, hpc, i, o, hd, hop, ho, hfails⟩
  obtain ⟨t, hrun, hst⟩ := hat.run_stays n
  exact ⟨t, hrun, hst.rs_eq.trans hrs, hst.pc_eq, hst.pcPrev_eq, hst.ac_eq, hst.mem_eq, hst.cl_length⟩

end Sys2Proof.Machine
end
